-- ==== Sys2Proof/Word.lean ====
section
/-! DEFINITION. The widths of the machine (spec/00_scope.md R6): bytes, 16-bit words, 12-bit addresses, register and key
numbers, and the two registers the spec names. -/

namespace Sys2Proof

/-- An 8-bit value: a general register, a timer, a byte of memory (R30, R36, R39). -/
abbrev Byte := BitVec 8

/-- A 16-bit value: `pc`, `I`, a stack slot, an instruction word (R32, R35, R38, R101). -/
abbrev Word := BitVec 16

/-- A 12-bit memory address, 0x000 to 0xFFF (R6, R70). -/
abbrev Addr := BitVec 12

/-- The number of a general register, V0 to VF (R30). -/
abbrev RegId := Fin 16

/-- The number of a key latch (R40). -/
abbrev KeyId := Fin 16

/-- The number of a framebuffer row, 0 to 31 (R41). -/
abbrev RowId := Fin 32

/-- The number of a framebuffer column, 0 to 63 (R41). -/
abbrev ColId := Fin 64

/-- VF, the flag register (R31). -/
abbrev VF : RegId := 15

/-- V0, the offset of jump-with-offset (R31, R142). -/
abbrev V0 : RegId := 0

end Sys2Proof
end

