-- ==== Sys2Proof/Config.lean ====
section
/-! DEFINITION. What is fixed for the machine (spec/00_scope.md R6) and what the spec leaves free (R7). -/

namespace Sys2Proof.Config

/-- `MEM_SIZE`: 4096 bytes (R6). -/
def memSize : Nat := 4096

/-- `PROG_BASE`: the reset value of `pc` and the loader's first byte; below it memory is reserved (R6, R36). -/
def progBase : Nat := 0x200

/-- `PROG_MAX`: the longest program a load accepts, 3584 bytes (R6, R305). -/
def progMax : Nat := 3584

/-- `STACK_SLOTS` (R6). -/
def stackSlots : Nat := 16

/-- The size of the font, 16 glyphs of 5 bytes from address 0 (R6, R37). -/
def fontSize : Nat := 80

/-- `FONT_GLYPH_BYTES` (R6). -/
def glyphBytes : Nat := 5

/-- FREE VALUE: the byte that the `rand` port supplies to the n-th draw (R67, R143, D22; DESIGN CHOICE, log 1).
It has no body: nothing is known of any byte it gives, nor of two draws together. -/
opaque drawByte : Nat → Byte

end Sys2Proof.Config
end

