-- ==== Sys2Proof/Syntax.lean ====
section
/-! DEFINITION. The instruction set: one constructor per row of spec/opcode_table.json (spec/30_encoding.md R105). -/

namespace Sys2Proof

/-- The 34 instructions. Operands are typed as R103 gives them: `x`, `y` register numbers, `nn` an 8-bit immediate,
`nnn` a 12-bit address, `n` the sprite height (a count, whose range 0 to 15 `Instr.wf` checks). -/
inductive Instr
  /-- CLS, 00E0 (R131) -/
  | cls
  /-- RET, 00EE (R132) -/
  | ret
  /-- JP nnn, 1NNN (R133) -/
  | jp (nnn : Addr)
  /-- CALL nnn, 2NNN (R134) -/
  | call (nnn : Addr)
  /-- SE Vx, nn, 3XNN (R135) -/
  | seImm (x : RegId) (nn : Byte)
  /-- SNE Vx, nn, 4XNN (R136) -/
  | sneImm (x : RegId) (nn : Byte)
  /-- SE Vx, Vy, 5XY0 (R137) -/
  | seReg (x y : RegId)
  /-- LD Vx, nn, 6XNN (R139) -/
  | ldImm (x : RegId) (nn : Byte)
  /-- ADD Vx, nn, 7XNN (R140) -/
  | addImm (x : RegId) (nn : Byte)
  /-- LD Vx, Vy, 8XY0 (R171) -/
  | ldReg (x y : RegId)
  /-- OR Vx, Vy, 8XY1 (R172) -/
  | orReg (x y : RegId)
  /-- AND Vx, Vy, 8XY2 (R173) -/
  | andReg (x y : RegId)
  /-- XOR Vx, Vy, 8XY3 (R174) -/
  | xorReg (x y : RegId)
  /-- ADD Vx, Vy, 8XY4 (R175) -/
  | addReg (x y : RegId)
  /-- SUB Vx, Vy, 8XY5 (R176) -/
  | subReg (x y : RegId)
  /-- SHR Vx, 8XY6; the nibble `y` is encoded and not read (R177; log 14) -/
  | shr (x y : RegId)
  /-- SUBN Vx, Vy, 8XY7 (R178) -/
  | subnReg (x y : RegId)
  /-- SHL Vx, 8XYE; the nibble `y` is encoded and not read (R179; log 14) -/
  | shl (x y : RegId)
  /-- SNE Vx, Vy, 9XY0 (R138) -/
  | sneReg (x y : RegId)
  /-- LD I, nnn, ANNN (R141) -/
  | ldI (nnn : Addr)
  /-- JP V0, nnn, BNNN (R142) -/
  | jpV0 (nnn : Addr)
  /-- RND Vx, nn, CXNN (R143) -/
  | rnd (x : RegId) (nn : Byte)
  /-- DRW Vx, Vy, n, DXYN (R203) -/
  | drw (x y : RegId) (n : Nat)
  /-- SKP Vx, EX9E (R240) -/
  | skp (x : RegId)
  /-- SKNP Vx, EXA1 (R241) -/
  | sknp (x : RegId)
  /-- LD Vx, DT, FX07 (R220) -/
  | ldVxDt (x : RegId)
  /-- LD Vx, K, FX0A (R236) -/
  | ldVxK (x : RegId)
  /-- LD DT, Vx, FX15 (R221) -/
  | ldDtVx (x : RegId)
  /-- LD ST, Vx, FX18 (R222) -/
  | ldStVx (x : RegId)
  /-- ADD I, Vx, FX1E (R225) -/
  | addI (x : RegId)
  /-- LD F, Vx, FX29 (R226) -/
  | ldF (x : RegId)
  /-- LD B, Vx, FX33 (R227) -/
  | ldB (x : RegId)
  /-- LD [I], Vx, FX55 (R228) -/
  | storeRegs (x : RegId)
  /-- LD Vx, [I], FX65 (R229) -/
  | loadRegs (x : RegId)
deriving DecidableEq, Repr

end Sys2Proof
end

