-- ==== Sys2Proof/Decode.lean ====
section
/-! DEFINITION. Decoding (spec/30_encoding.md R100 to R107) and, after it, encoding. The decoder reads only the word (R106).
The bit patterns are the spec's table R105, all but four of them the spec's own general knowledge (D1; log 10). -/

namespace Sys2Proof

/-- What `decode(w)` answers (R100, R105): an instruction, or one of the two encoding faults (R107). -/
inductive Decoded
  /-- a row of R105 matches -/
  | insn (i : Instr)
  /-- families 0, 5, 9, E and F outside their rows -/
  | decodeFault
  /-- family 8 with an undefined selector nibble (R180) -/
  | selectorFault
deriving DecidableEq, Repr

/-! ## The fields of a word (R11) -/

/-- `hi ++ lo`: the byte at the lower address is the high one (R8, R73). -/
def beWord (hi lo : Byte) : Word := hi ++ lo

/-- `F`, the opcode family, `w[15:12]` (R11). -/
def fieldF (w : Word) : BitVec 4 := w.extractLsb' 12 4

/-- `x`, `w[11:8]` (R11). -/
def fieldX (w : Word) : RegId := (w.extractLsb' 8 4).toFin

/-- `y`, `w[7:4]` (R11). -/
def fieldY (w : Word) : RegId := (w.extractLsb' 4 4).toFin

/-- `n`, `w[3:0]`: the selector nibble or the sprite height (R11). -/
def fieldN (w : Word) : BitVec 4 := w.extractLsb' 0 4

/-- `nn`, `w[7:0]`: the 8-bit immediate or the selector byte (R11). -/
def fieldNN (w : Word) : Byte := w.extractLsb' 0 8

/-- `nnn`, `w[11:0]` (R11). -/
def fieldNNN (w : Word) : Addr := w.extractLsb' 0 12

/-! ## The decode map, family by family (R105) -/

/-- Family 0: strict, only 00E0 and 00EE (R107, D11). -/
def decodeFamily0 (w : Word) : Decoded :=
  if w = 0x00E0#16 then .insn .cls
  else if w = 0x00EE#16 then .insn .ret
  else .decodeFault

/-- Families 5 and 9: the low nibble must be 0 (R107, D11). -/
def decodeStrictRR (build : RegId → RegId → Instr) (w : Word) : Decoded :=
  if fieldN w = 0x0#4 then .insn (build (fieldX w) (fieldY w)) else .decodeFault

/-- Family 8, the arithmetic group; a selector outside it is an arithmetic-selector fault (R180). -/
def decodeFamily8 (w : Word) : Decoded :=
  let x := fieldX w
  let y := fieldY w
  if fieldN w = 0x0#4 then .insn (.ldReg x y)
  else if fieldN w = 0x1#4 then .insn (.orReg x y)
  else if fieldN w = 0x2#4 then .insn (.andReg x y)
  else if fieldN w = 0x3#4 then .insn (.xorReg x y)
  else if fieldN w = 0x4#4 then .insn (.addReg x y)
  else if fieldN w = 0x5#4 then .insn (.subReg x y)
  else if fieldN w = 0x6#4 then .insn (.shr x y)
  else if fieldN w = 0x7#4 then .insn (.subnReg x y)
  else if fieldN w = 0xE#4 then .insn (.shl x y)
  else .selectorFault

/-- Family E, the two skip-if-key instructions (R240 to R242, D13). -/
def decodeFamilyE (w : Word) : Decoded :=
  if fieldNN w = 0x9E#8 then .insn (.skp (fieldX w))
  else if fieldNN w = 0xA1#8 then .insn (.sknp (fieldX w))
  else .decodeFault

/-- Family F, the timer, memory and keypad group (R220 to R230, R236). -/
def decodeFamilyF (w : Word) : Decoded :=
  let x := fieldX w
  if fieldNN w = 0x07#8 then .insn (.ldVxDt x)
  else if fieldNN w = 0x0A#8 then .insn (.ldVxK x)
  else if fieldNN w = 0x15#8 then .insn (.ldDtVx x)
  else if fieldNN w = 0x18#8 then .insn (.ldStVx x)
  else if fieldNN w = 0x1E#8 then .insn (.addI x)
  else if fieldNN w = 0x29#8 then .insn (.ldF x)
  else if fieldNN w = 0x33#8 then .insn (.ldB x)
  else if fieldNN w = 0x55#8 then .insn (.storeRegs x)
  else if fieldNN w = 0x65#8 then .insn (.loadRegs x)
  else .decodeFault

/-- `decode(w)` (R105): total, and every word has exactly one answer. -/
def decodeWord (w : Word) : Decoded :=
  match (fieldF w).toNat with
  | 0x0 => decodeFamily0 w
  | 0x1 => .insn (.jp (fieldNNN w))
  | 0x2 => .insn (.call (fieldNNN w))
  | 0x3 => .insn (.seImm (fieldX w) (fieldNN w))
  | 0x4 => .insn (.sneImm (fieldX w) (fieldNN w))
  | 0x5 => decodeStrictRR .seReg w
  | 0x6 => .insn (.ldImm (fieldX w) (fieldNN w))
  | 0x7 => .insn (.addImm (fieldX w) (fieldNN w))
  | 0x8 => decodeFamily8 w
  | 0x9 => decodeStrictRR .sneReg w
  | 0xA => .insn (.ldI (fieldNNN w))
  | 0xB => .insn (.jpV0 (fieldNNN w))
  | 0xC => .insn (.rnd (fieldX w) (fieldNN w))
  | 0xD => .insn (.drw (fieldX w) (fieldY w) (fieldN w).toNat)
  | 0xE => decodeFamilyE w
  | _   => decodeFamilyF w

/-- Why `decodeBytes` refuses a sequence of bytes. -/
inductive DecodeReject
  /-- a decode fault (R107) -/
  | decodeFault
  /-- an arithmetic-selector fault (R107, R180) -/
  | selectorFault
  /-- fewer than the two bytes of an instruction (R101); the machine's own fetch always has two -/
  | truncated
deriving DecidableEq, Repr

/-- Decoding from a sequence of bytes, the byte at the lower address first (R73, R101): the instruction and the bytes after
it, or the reason for refusing. -/
def decodeBytes : List Byte → Except DecodeReject (Instr × List Byte)
  | hi :: lo :: rest =>
    match decodeWord (beWord hi lo) with
    | .insn i => .ok (i, rest)
    | .decodeFault => .error .decodeFault
    | .selectorFault => .error .selectorFault
  | _ => .error .truncated

/-- The two bytes of a word as the memory holds them, the high byte at the lower address (R73). -/
def wordBytes (w : Word) : List Byte := [w.extractLsb' 8 8, w.extractLsb' 0 8]

/-- The word that the host means by `nbits` bits of `w`: the bits from `nbits` up are zero. -/
def tableWord (nbits w : Nat) : Word := BitVec.ofNat 16 (w % 2 ^ nbits)

/-- The instruction the decoder reads from the bytes of a word numbered as spec/opcode_table.json numbers it. -/
def decodeTableWord (nbits w : Nat) : Option Instr :=
  match decodeBytes (wordBytes (tableWord nbits w)) with
  | .ok (i, _) => some i
  | .error _ => none

/-! ## Encoding (R102) -/

/-- A register number as a 4-bit field. -/
def regBits (x : RegId) : BitVec 4 := BitVec.ofNat 4 x.val

/-- Format `RR` and `RRN`: `ffff xxxx yyyy ssss` (R102). -/
def packRR (f : BitVec 4) (x y : RegId) (s : BitVec 4) : Word := f ++ regBits x ++ regBits y ++ s

/-- Format `RI` and `RS`: `ffff xxxx iiii iiii` (R102). -/
def packRI (f : BitVec 4) (x : RegId) (nn : Byte) : Word := f ++ regBits x ++ nn

/-- Format `A`: `ffff aaaa aaaa aaaa` (R102). -/
def packA (f : BitVec 4) (nnn : Addr) : Word := f ++ nnn

/-- The word of an instruction (R102, R105). -/
def encode : Instr → Word
  | .cls => 0x00E0#16
  | .ret => 0x00EE#16
  | .jp nnn => packA 0x1 nnn
  | .call nnn => packA 0x2 nnn
  | .seImm x nn => packRI 0x3 x nn
  | .sneImm x nn => packRI 0x4 x nn
  | .seReg x y => packRR 0x5 x y 0x0
  | .ldImm x nn => packRI 0x6 x nn
  | .addImm x nn => packRI 0x7 x nn
  | .ldReg x y => packRR 0x8 x y 0x0
  | .orReg x y => packRR 0x8 x y 0x1
  | .andReg x y => packRR 0x8 x y 0x2
  | .xorReg x y => packRR 0x8 x y 0x3
  | .addReg x y => packRR 0x8 x y 0x4
  | .subReg x y => packRR 0x8 x y 0x5
  | .shr x y => packRR 0x8 x y 0x6
  | .subnReg x y => packRR 0x8 x y 0x7
  | .shl x y => packRR 0x8 x y 0xE
  | .sneReg x y => packRR 0x9 x y 0x0
  | .ldI nnn => packA 0xA nnn
  | .jpV0 nnn => packA 0xB nnn
  | .rnd x nn => packRI 0xC x nn
  | .drw x y n => packRR 0xD x y (BitVec.ofNat 4 n)
  | .skp x => packRI 0xE x 0x9E
  | .sknp x => packRI 0xE x 0xA1
  | .ldVxDt x => packRI 0xF x 0x07
  | .ldVxK x => packRI 0xF x 0x0A
  | .ldDtVx x => packRI 0xF x 0x15
  | .ldStVx x => packRI 0xF x 0x18
  | .addI x => packRI 0xF x 0x1E
  | .ldF x => packRI 0xF x 0x29
  | .ldB x => packRI 0xF x 0x33
  | .storeRegs x => packRI 0xF x 0x55
  | .loadRegs x => packRI 0xF x 0x65

/-- The bytes of an instruction as the memory holds them (R73, R101). -/
def encodeBytes (i : Instr) : List Byte := wordBytes (encode i)

/-! ## The opcode table as rows of mask and match (R106) -/

/-- One row of spec/opcode_table.json. -/
structure OpcodeRow where
  mnemonic : String
  mask : Word
  pattern : Word
deriving DecidableEq, Repr

/-- A word matches a row when its masked bits are the row's pattern (R106). -/
def OpcodeRow.matches (r : OpcodeRow) (w : Word) : Bool := w &&& r.mask == r.pattern

/-- The row of spec/opcode_table.json that a constructor stands for. -/
def Instr.row : Instr → OpcodeRow
  | .cls => ⟨"CLS", 0xFFFF, 0x00E0⟩
  | .ret => ⟨"RET", 0xFFFF, 0x00EE⟩
  | .jp _ => ⟨"JP_nnn", 0xF000, 0x1000⟩
  | .call _ => ⟨"CALL_nnn", 0xF000, 0x2000⟩
  | .seImm _ _ => ⟨"SE_Vx__nn", 0xF000, 0x3000⟩
  | .sneImm _ _ => ⟨"SNE_Vx__nn", 0xF000, 0x4000⟩
  | .seReg _ _ => ⟨"SE_Vx__Vy", 0xF00F, 0x5000⟩
  | .ldImm _ _ => ⟨"LD_Vx__nn", 0xF000, 0x6000⟩
  | .addImm _ _ => ⟨"ADD_Vx__nn", 0xF000, 0x7000⟩
  | .ldReg _ _ => ⟨"LD_Vx__Vy", 0xF00F, 0x8000⟩
  | .orReg _ _ => ⟨"OR_Vx__Vy", 0xF00F, 0x8001⟩
  | .andReg _ _ => ⟨"AND_Vx__Vy", 0xF00F, 0x8002⟩
  | .xorReg _ _ => ⟨"XOR_Vx__Vy", 0xF00F, 0x8003⟩
  | .addReg _ _ => ⟨"ADD_Vx__Vy", 0xF00F, 0x8004⟩
  | .subReg _ _ => ⟨"SUB_Vx__Vy", 0xF00F, 0x8005⟩
  | .shr _ _ => ⟨"SHR_Vx", 0xF00F, 0x8006⟩
  | .subnReg _ _ => ⟨"SUBN_Vx__Vy", 0xF00F, 0x8007⟩
  | .shl _ _ => ⟨"SHL_Vx", 0xF00F, 0x800E⟩
  | .sneReg _ _ => ⟨"SNE_Vx__Vy", 0xF00F, 0x9000⟩
  | .ldI _ => ⟨"LD_I__nnn", 0xF000, 0xA000⟩
  | .jpV0 _ => ⟨"JP_V0__nnn", 0xF000, 0xB000⟩
  | .rnd _ _ => ⟨"RND_Vx__nn", 0xF000, 0xC000⟩
  | .drw _ _ _ => ⟨"DRW_Vx__Vy__n", 0xF000, 0xD000⟩
  | .skp _ => ⟨"SKP_Vx", 0xF0FF, 0xE09E⟩
  | .sknp _ => ⟨"SKNP_Vx", 0xF0FF, 0xE0A1⟩
  | .ldVxDt _ => ⟨"LD_Vx__DT", 0xF0FF, 0xF007⟩
  | .ldVxK _ => ⟨"LD_Vx__K", 0xF0FF, 0xF00A⟩
  | .ldDtVx _ => ⟨"LD_DT__Vx", 0xF0FF, 0xF015⟩
  | .ldStVx _ => ⟨"LD_ST__Vx", 0xF0FF, 0xF018⟩
  | .addI _ => ⟨"ADD_I__Vx", 0xF0FF, 0xF01E⟩
  | .ldF _ => ⟨"LD_F__Vx", 0xF0FF, 0xF029⟩
  | .ldB _ => ⟨"LD_B__Vx", 0xF0FF, 0xF033⟩
  | .storeRegs _ => ⟨"LD__I___Vx", 0xF0FF, 0xF055⟩
  | .loadRegs _ => ⟨"LD_Vx___I", 0xF0FF, 0xF065⟩

end Sys2Proof
end

