-- ==== Sys2Proof/Machine/State.lean ====
section
/-! DEFINITION. The state of the machine as plain data (spec/10_state.md), the reports of its fault log, the outside events
that its agenda holds, the reasons a step could stop, and the state after reset. -/

namespace Sys2Proof.Machine

/-! ## The fault log (R45, R261, R262) -/

/-- Which way the stack discipline was broken (R261, R262). -/
inductive StackMisuse
  /-- CALL with SP = 16 (R134) -/
  | overflow
  /-- RET with SP = 0 (R132) -/
  | underflow
deriving DecidableEq, Repr

/-- The kind of a fault together with the detail that kind carries (R261, R262). -/
inductive FaultCause
  /-- kind 0: a word of family 0, 5, 9, E or F that matches no row (R107) -/
  | decode
  /-- kind 1: a family-8 word with an undefined selector (R180) -/
  | arithSelector
  /-- kind 2: a call with a full stack or a return with an empty one -/
  | stackDiscipline (detail : StackMisuse)
  /-- kind 3: instruction writes below 0x200, their addresses in the order the instruction tried them (R74) -/
  | reservedWrite (suppressed : List Addr)
deriving DecidableEq, Repr

/-- One fault report (R262): what happened, the address of the faulting instruction and its word. The numeric code is a
function of the kind (`FaultCause.code`). -/
structure FaultReport where
  cause : FaultCause
  pc0 : Word
  word : Word
deriving DecidableEq, Repr

/-! ## The outside world (R61 to R63, R84, R85, R281, R287) -/

/-- One event of the `set_key` port (R62). The index is an integer: one outside 0 to 15 is ignored. -/
structure KeyEvent where
  index : Int
  pressed : Bool
deriving DecidableEq, Repr

/-- One event of an agent outside the engine. -/
inductive HostEvent
  /-- the timer clock (R61, R280) -/
  | tick
  /-- the input adapter (R62) -/
  | setKey (e : KeyEvent)
  /-- the program loader (R63, R305) -/
  | load (bytes : List Byte)
deriving DecidableEq, Repr

/-- What the outside world does around one step (log 4, log 5): the events that fall before its fetch, in order, and the
key events that fall during it. The j-th list of `arrivals` lands just before the j-th latch read of the instruction, and
what is left lands before the step ends (R85). -/
structure Slot where
  before : List HostEvent
  arrivals : List (List KeyEvent)
deriving DecidableEq, Repr

/-! ## The state -/

/-- Memory: the bytes that differ from what reset left, by address (R36; `Memory.read`, `Memory.wf`). -/
abbrev Memory := List Host.Cell

/-- The framebuffer, row by row: 32 rows of 64 pixels (R41). -/
abbrev Framebuffer := Vector (Vector Bool 64) 32

/-- The machine state: every field of spec/10_state.md section 1, and the model's own two fields `agenda` and `draws`. -/
structure State where
  /-- V0 to VF (R30) -/
  v : Vector Byte 16
  /-- the program counter, 16 bits (R32) -/
  pc : Word
  /-- the index register I, 16 bits (R35) -/
  index : Word
  /-- the 4096 bytes of memory (R36) -/
  mem : Memory
  /-- the 16 stack slots, stale ones included (R38, R44) -/
  stack : Vector Word 16
  /-- SP, the count of active slots, 0 to 16 (R38) -/
  sp : Fin 17
  /-- the delay timer (R39) -/
  dt : Byte
  /-- the sound timer (R39) -/
  st : Byte
  /-- the 16 key latches (R40) -/
  key : Vector Bool 16
  /-- the 64 by 32 framebuffer (R41) -/
  fb : Framebuffer
  /-- FAULTS, oldest report first (R45) -/
  faults : List FaultReport
  /-- the model's own: what the outside world does around each coming step (log 4) -/
  agenda : List Slot
  /-- the model's own: how many random bytes have been drawn (log 1) -/
  draws : Nat
deriving DecidableEq, Repr

/-- Why the machine stops with a fault: NO REASON. The core never traps and no operation blocks or halts it (R260, R290);
every fault of the spec is a report in `faults` and the machine goes on (R263). The type has no constructor, so no meaning
can answer with a fault. Safe: it claims no stop (log 22). -/
inductive Fault
deriving DecidableEq, Repr

/-- Why a step has no answer. -/
inductive Refusal
  /-- raised by an arm of `exec` whose instruction has no meaning yet; no arm of this model does (safe) -/
  | notModelled (mnemonic : String)
deriving DecidableEq, Repr

/-- The machine right after reset (R50, R300): every field at the reset value of spec/10_state.md section 1. Nothing is
listed in memory, so every address holds its reset content (`resetByte`: the font, then 0x00). The model's own fields start
with no outside event to come and no byte drawn (DESIGN CHOICE, log 1 and log 4). -/
def State.reset : State where
  v := Vector.replicate 16 0
  pc := 0x200
  index := 0
  mem := []
  stack := Vector.replicate 16 0
  sp := 0
  dt := 0
  st := 0
  key := Vector.replicate 16 false
  fb := Vector.replicate 32 (Vector.replicate 64 false)
  faults := []
  agenda := []
  draws := 0

end Sys2Proof.Machine
end

