-- ==== Sys2Proof/Machine/Ops.lean ====
section
/-! DEFINITION. The named operations over memory, registers, program counter, stack and fault log. Taking a fault is here,
once (R262, R266); there is no return from a fault (R267). -/

namespace Sys2Proof.Machine

/-! ## Addresses and masks -/

/-- `t & 0xFFF` as a 16-bit value (R33, R35). -/
def mask12 (t : Word) : Word := t &&& 0x0FFF#16

/-- `a & 0xFFF`, the address that a 16-bit value names (R71). -/
def toAddr (a : Word) : Addr := a.truncate 12

/-- The address at offset `k` from `base`, wrapped: `(base + k) & 0xFFF` (R75, D6; log 7). -/
def offsetAddr (base : Word) (k : Nat) : Addr := toAddr (base + BitVec.ofNat 16 k)

/-- An address below 0x200 belongs to the reserved region (R36, R74). -/
def isReserved (a : Addr) : Bool := decide (a.toNat < Config.progBase)

/-! ## What memory holds at reset (R37, R50) -/

/-- The default table of the parameter FONT (R37; the spec's own general knowledge, D2, G4: PRESUMED, log 2): five bytes a
digit, top row first. -/
def defaultFont : List Byte :=
  [0xF0, 0x90, 0x90, 0x90, 0xF0] ++ [0x20, 0x60, 0x20, 0x20, 0x70] ++
  [0xF0, 0x10, 0xF0, 0x80, 0xF0] ++ [0xF0, 0x10, 0xF0, 0x10, 0xF0] ++
  [0x90, 0x90, 0xF0, 0x10, 0x10] ++ [0xF0, 0x80, 0xF0, 0x10, 0xF0] ++
  [0xF0, 0x80, 0xF0, 0x90, 0xF0] ++ [0xF0, 0x10, 0x20, 0x40, 0x40] ++
  [0xF0, 0x90, 0xF0, 0x90, 0xF0] ++ [0xF0, 0x90, 0xF0, 0x10, 0xF0] ++
  [0xF0, 0x90, 0xF0, 0x90, 0x90] ++ [0xE0, 0x90, 0xE0, 0x90, 0xE0] ++
  [0xF0, 0x80, 0x80, 0x80, 0xF0] ++ [0xE0, 0x90, 0x90, 0x90, 0xE0] ++
  [0xF0, 0x80, 0xF0, 0x80, 0xF0] ++ [0xF0, 0x80, 0xF0, 0x80, 0x80]

/-- What an unlisted address reads as: its reset content, the font at 0x000 to 0x04F and 0x00 elsewhere (R50; log 2 for the
font's bytes, log 3 for the zeros). -/
def resetByte (a : Nat) : Byte := defaultFont.getD a 0

/-! ## Memory as data -/

/-- The byte at an address: the listed one, or what reset left there. -/
def Memory.read : Memory → Nat → Byte
  | [], a => resetByte a
  | (k, b) :: rest, a => if k = a then b else Memory.read rest a

/-- The memory with no entry for an address. -/
def Memory.erase (m : Memory) (a : Nat) : Memory := m.filter (fun c => c.1 != a)

/-- An entry put before the first one of a higher address. -/
def Memory.insert (a : Nat) (b : Byte) : Memory → Memory
  | [] => [(a, b)]
  | (k, c) :: rest => if a < k then (a, b) :: (k, c) :: rest else (k, c) :: Memory.insert a b rest

/-- Sets the byte at an address and keeps the canonical form: no entry where the byte is what an unlisted address reads as. -/
def Memory.write (m : Memory) (a : Nat) (b : Byte) : Memory :=
  if b = resetByte a then m.erase a else (m.erase a).insert a b

/-- The addresses are at least `lo`, strictly rising and below 4096, and no entry is what an unlisted address reads as. -/
def Memory.wfFrom (lo : Nat) : Memory → Bool
  | [] => true
  | (k, b) :: rest =>
    decide (lo ≤ k) && decide (k < Config.memSize) && decide (b ≠ resetByte k) && Memory.wfFrom (k + 1) rest

/-- The canonical form of memory. -/
def Memory.wf (m : Memory) : Bool := Memory.wfFrom 0 m

/-- Sets consecutive bytes from `base` upward, no wrap (the loader's copy, R305). -/
def Memory.writeBytes (m : Memory) (base : Nat) : List Byte → Memory
  | [] => m
  | b :: rest => Memory.writeBytes (m.write base b) (base + 1) rest

namespace State

/-- `MemRead(a, 1)` at an address already masked (R71): no side effect, allowed everywhere. -/
def read (s : State) (a : Addr) : Byte := s.mem.read a.toNat

/-- A byte set in memory with no check: what an allowed instruction write and a word placed from outside do. -/
def setByte (a : Addr) (b : Byte) (s : State) : State := { s with mem := s.mem.write a.toNat b }

/-! ## Registers -/

/-- `V[r]` (R30). -/
def reg (s : State) (r : RegId) : Byte := s.v[r.val]

/-- `V[r] <- b` (R30). -/
def setReg (r : RegId) (b : Byte) (s : State) : State := { s with v := s.v.set r.val b }

/-- `pc <- t`, masked to 12 bits on every write (R33, D4; log 6). -/
def setPc (t : Word) (s : State) : State := { s with pc := mask12 t }

/-- `I <- t` (R35); the instruction that computes `t` by arithmetic masks it. -/
def setIndex (t : Word) (s : State) : State := { s with index := t }

/-- `pc <- pc + 2` (R130). -/
def advance (s : State) : State := s.setPc (s.pc + 2)

/-- `pc <- pc + 4` if the condition holds, else `pc <- pc + 2` (R130). -/
def skipIf (c : Bool) (s : State) : State := if c then s.setPc (s.pc + 4) else s.advance

/-- `DT <- b` (R39). -/
def setDt (b : Byte) (s : State) : State := { s with dt := b }

/-- `ST <- b` (R39). -/
def setSt (b : Byte) (s : State) : State := { s with st := b }

/-- The pixel of row `q` and column `c` (R41). -/
def pixel (s : State) (q : RowId) (c : ColId) : Bool := (s.fb[q.val])[c.val]

/-! ## The call stack (R38) -/

/-- A push: writes `STACK[SP]`, then increments SP; none when SP = 16. -/
def push (a : Word) (s : State) : Option State :=
  if h : s.sp.val < 16 then
    some { s with stack := s.stack.set s.sp.val a, sp := ⟨s.sp.val + 1, by omega⟩ }
  else none

/-- A pop: decrements SP, then reads `STACK[SP]`; none when SP = 0. The slot keeps its value (R44). -/
def pop (s : State) : Option (Word × State) :=
  if h : 0 < s.sp.val then
    some (s.stack[s.sp.val - 1], { s with sp := ⟨s.sp.val - 1, by omega⟩ })
  else none

/-! ## Taking a fault (R262, R263, R266) -/

/-- `raise Fault(kind, info)`: appends one report and changes nothing else (R45, R262). -/
def raise (cause : FaultCause) (pc0 word : Word) (s : State) : State :=
  { s with faults := s.faults ++ [⟨cause, pc0, word⟩] }

/-- A fault that prevents the instruction: report it with its address and word, go on at the next word, change nothing else
(R263, R266). -/
def takeFault (cause : FaultCause) (word : Word) (s : State) : State := (s.raise cause s.pc word).advance

/-- `draw_byte()`: the byte the random source supplies now; the next draw has the next number (R67, R143; log 1). -/
def drawByte (s : State) : Byte × State := (Config.drawByte s.draws, { s with draws := s.draws + 1 })

end State

/-! ## Instruction writes (R74) -/

/-- A state together with `SUPPRESSED`, the addresses whose writes were suppressed so far in this instruction (R74). -/
abbrev Writing := State × List Addr

/-- `MemWrite(a, 1, b)` at an address already masked (R74, D8; log 8): below 0x200 the address joins `SUPPRESSED` and no byte
changes, elsewhere the byte is set. -/
def memWrite (a : Addr) (b : Byte) (p : Writing) : Writing :=
  if isReserved a then (p.1, p.2 ++ [a]) else (p.1.setByte a b, p.2)

/-- Instruction writes of consecutive bytes at offsets `k`, `k + 1`, ... from `base`, in order (R72, R224). -/
def memWriteFrom (base : Word) : Nat → List Byte → Writing → Writing
  | _, [], p => p
  | k, b :: rest, p => memWriteFrom base (k + 1) rest (memWrite (offsetAddr base k) b p)

/-- After the instruction: one `ReservedWrite` report if anything was suppressed (R74, R100). -/
def reportSuppressed (pc0 word : Word) (p : Writing) : State :=
  match p.2 with
  | [] => p.1
  | as => p.1.raise (.reservedWrite as) pc0 word

/-! ## The numbers and words of a report (R261, R262) -/

/-- The code of a fault kind (R261). -/
def FaultCause.code : FaultCause → Nat
  | .decode => 0
  | .arithSelector => 1
  | .stackDiscipline _ => 2
  | .reservedWrite _ => 3

end Sys2Proof.Machine
end

