-- ==== Sys2Proof/Machine/Flags.lean ====
section
/-! DEFINITION. Every flag computation of the spec (spec/10_state.md R42). The one flag is VF; each value is computed from
the operands as they were before the instruction (R31, R170). -/

namespace Sys2Proof.Machine

/-- A flag as VF holds it: 1 or 0 (R42). -/
def flagByte (c : Bool) : Byte := if c then 1 else 0

/-- add: the exact sum exceeds 255 (R175). -/
def addFlag (a b : Byte) : Bool := decide (a.toNat + b.toNat > 255)

/-- subtract: strictly greater, so equal operands give 0 (R176, C6). -/
def subFlag (a b : Byte) : Bool := decide (a.toNat > b.toNat)

/-- shift-right: bit 0 before the shift (R177). -/
def shrFlag (a : Byte) : Bool := a.getLsbD 0

/-- shift-left: bit 7 before the shift (R179). -/
def shlFlag (a : Byte) : Bool := a.getLsbD 7

/-- add-to-index: the exact sum passes 0xFFF (R225, C9). -/
def indexFlag (i : Word) (a : Byte) : Bool := decide (i.toNat + a.toNat > 0xFFF)

/-- `V[F] <- flag`, the last write of an instruction that signals (R31). -/
def State.setFlag (c : Bool) (s : State) : State := s.setReg VF (flagByte c)

end Sys2Proof.Machine
end

