-- ==== Sys2Proof/Machine/Operands.lean ====
section
/-! DEFINITION. The operand forms: what an instruction reads (spec/30_encoding.md R103). Register and immediate operands are
`State.reg` and the constructor's own fields; the forms below need a computation. -/

namespace Sys2Proof.Machine

/-- `zext_16(nnn)`: a 12-bit address operand as a `pc` or `I` value (R103, R133, R141). -/
def addrOperand (nnn : Addr) : Word := nnn.zeroExtend 16

/-- `zext_16(b)` of a register value used in address arithmetic (R142, R226). -/
def byteOperand (b : Byte) : Word := b.zeroExtend 16

/-- `V[x] & 0xF`, the key that a skip-if-key names (R240, D13). -/
def lowNibble (b : Byte) : KeyId := (b.extractLsb' 0 4).toFin

/-- The index of a key as the byte that the key wait stores, 0x00 to 0x0F (R236). -/
def keyByte (k : KeyId) : Byte := BitVec.ofNat 8 k.val

/-- The sixteen register numbers in order. -/
def allRegs : List RegId := [0, 1, 2, 3, 4, 5, 6, 7] ++ [8, 9, 10, 11, 12, 13, 14, 15]

/-- The registers `0..=x` of a range copy, in order (R228, R229). -/
def regRange (x : RegId) : List RegId := allRegs.take (x.val + 1)

/-- The hundreds, tens and ones digits of a byte (R227). -/
def decimalDigits (b : Byte) : List Byte :=
  [BitVec.ofNat 8 (b.toNat / 100), BitVec.ofNat 8 (b.toNat / 10 % 10), BitVec.ofNat 8 (b.toNat % 10)]

namespace State

/-- The values of the registers `0..=x`, in order (R228). -/
def rangeBytes (s : State) (x : RegId) : List Byte := (regRange x).map s.reg

/-- The byte at `(I + k) & 0xFFF` (R75, R200, R229). -/
def readAt (s : State) (k : Nat) : Byte := s.read (offsetAddr s.index k)

end State

/-! ## Reading a key latch (R85, D20) -/

/-- `set_key(index, pressed)`: sets the latch; an index outside 0 to 15 is ignored (R62). -/
def landKey (key : Vector Bool 16) (e : KeyEvent) : Vector Bool 16 :=
  if h : 0 ≤ e.index ∧ e.index < 16 then key.set e.index.toNat e.pressed (by omega) else key

/-- Key events landing one after another. -/
def landKeys (key : Vector Bool 16) (es : List KeyEvent) : Vector Bool 16 := es.foldl landKey key

namespace State

/-- The groups of key events that land during the coming instruction: those of the head slot of the agenda. -/
def arrivals (s : State) : List (List KeyEvent) :=
  match s.agenda with
  | [] => []
  | slot :: _ => slot.arrivals

/-- The value that the `nth` latch read of the instruction sees in latch `k`: the groups up to the `nth` have landed
(R85: a value the latch held at some instant during the step; two reads need not see one instant). -/
def latch (s : State) (nth : Nat) (k : KeyId) : Bool :=
  (landKeys s.key (s.arrivals.take (nth + 1)).flatten)[k.val]

/-- The scan of the key wait (R236, R237): the first `k` from 0 up whose latch is true when it is read, the `k`-th read being
of latch `k`. -/
def scanKeys (s : State) : Option KeyId := allRegs.find? (fun k => s.latch k.val k)

end State

end Sys2Proof.Machine
end

