-- ==== Sys2Proof/Machine/Alu.lean ====
section
/-! DEFINITION. The arithmetic and logic group, family 8 (spec/41_alu.md R170 to R181). Operands are read before anything is
written, and the flag is written after the result (R170). -/

namespace Sys2Proof.Machine

/-- A family-8 instruction without a flag: the result into Vx, then on to the next word (R171 to R174). -/
def aluPlain (x : RegId) (result : Byte) (s : State) : Host.Outcome State Fault Refusal :=
  .next (s.setReg x result).advance

/-- A family-8 instruction with a flag: the result into Vx, then the flag into VF, so that with x = F the flag stays
(R31, R170). -/
def aluFlagged (x : RegId) (result : Byte) (flag : Bool) (s : State) : Host.Outcome State Fault Refusal :=
  .next ((s.setReg x result).setFlag flag).advance

/-- LD Vx, Vy (R171). -/
def execLdReg (x y : RegId) (s : State) : Host.Outcome State Fault Refusal := aluPlain x (s.reg y) s

/-- OR Vx, Vy (R172): VF is not reset. -/
def execOrReg (x y : RegId) (s : State) : Host.Outcome State Fault Refusal := aluPlain x (s.reg x ||| s.reg y) s

/-- AND Vx, Vy (R173). -/
def execAndReg (x y : RegId) (s : State) : Host.Outcome State Fault Refusal := aluPlain x (s.reg x &&& s.reg y) s

/-- XOR Vx, Vy (R174). -/
def execXorReg (x y : RegId) (s : State) : Host.Outcome State Fault Refusal := aluPlain x (s.reg x ^^^ s.reg y) s

/-- ADD Vx, Vy (R175). -/
def execAddReg (x y : RegId) (s : State) : Host.Outcome State Fault Refusal :=
  aluFlagged x (s.reg x + s.reg y) (addFlag (s.reg x) (s.reg y)) s

/-- SUB Vx, Vy (R176). -/
def execSubReg (x y : RegId) (s : State) : Host.Outcome State Fault Refusal :=
  aluFlagged x (s.reg x - s.reg y) (subFlag (s.reg x) (s.reg y)) s

/-- SHR Vx (R177): Vx is shifted in place, the y nibble is not read (C7). -/
def execShr (x _y : RegId) (s : State) : Host.Outcome State Fault Refusal :=
  aluFlagged x (s.reg x >>> 1) (shrFlag (s.reg x)) s

/-- SUBN Vx, Vy (R178). -/
def execSubnReg (x y : RegId) (s : State) : Host.Outcome State Fault Refusal :=
  aluFlagged x (s.reg y - s.reg x) (subFlag (s.reg y) (s.reg x)) s

/-- SHL Vx (R179): Vx is shifted in place, the y nibble is not read (C7). -/
def execShl (x _y : RegId) (s : State) : Host.Outcome State Fault Refusal :=
  aluFlagged x (s.reg x <<< 1) (shlFlag (s.reg x)) s

end Sys2Proof.Machine
end

