-- ==== Sys2Proof/Machine/ControlFlow.lean ====
section
/-! DEFINITION. Control flow and direct loads (spec/40_control_flow.md R130 to R143). -/

namespace Sys2Proof.Machine

/-- CLS (R131): every pixel 0; VF is not written. -/
def execCls (s : State) : Host.Outcome State Fault Refusal :=
  .next { s with fb := Vector.replicate 32 (Vector.replicate 64 false) }.advance

/-- RET (R132, D10): pop and go on after the call; with an empty stack report Underflow and go on at the next word. -/
def execRet (s : State) : Host.Outcome State Fault Refusal :=
  match s.pop with
  | none => .next (s.takeFault (.stackDiscipline .underflow) (encode .ret))
  | some (a, t) => .next (t.setPc (a + 2))

/-- JP nnn (R133). -/
def execJp (nnn : Addr) (s : State) : Host.Outcome State Fault Refusal :=
  .next (s.setPc (addrOperand nnn))

/-- CALL nnn (R134, D9): push the call's own address and go; with a full stack report Overflow and go on at the next word. -/
def execCall (nnn : Addr) (s : State) : Host.Outcome State Fault Refusal :=
  match s.push s.pc with
  | none => .next (s.takeFault (.stackDiscipline .overflow) (encode (.call nnn)))
  | some t => .next (t.setPc (addrOperand nnn))

/-- SE Vx, nn (R135). -/
def execSeImm (x : RegId) (nn : Byte) (s : State) : Host.Outcome State Fault Refusal :=
  .next (s.skipIf (s.reg x == nn))

/-- SNE Vx, nn (R136). -/
def execSneImm (x : RegId) (nn : Byte) (s : State) : Host.Outcome State Fault Refusal :=
  .next (s.skipIf (s.reg x != nn))

/-- SE Vx, Vy (R137). -/
def execSeReg (x y : RegId) (s : State) : Host.Outcome State Fault Refusal :=
  .next (s.skipIf (s.reg x == s.reg y))

/-- SNE Vx, Vy (R138). -/
def execSneReg (x y : RegId) (s : State) : Host.Outcome State Fault Refusal :=
  .next (s.skipIf (s.reg x != s.reg y))

/-- LD Vx, nn (R139). -/
def execLdImm (x : RegId) (nn : Byte) (s : State) : Host.Outcome State Fault Refusal :=
  .next (s.setReg x nn).advance

/-- ADD Vx, nn (R140): wraps, no flag. -/
def execAddImm (x : RegId) (nn : Byte) (s : State) : Host.Outcome State Fault Refusal :=
  .next (s.setReg x (s.reg x + nn)).advance

/-- LD I, nnn (R141). -/
def execLdI (nnn : Addr) (s : State) : Host.Outcome State Fault Refusal :=
  .next (s.setIndex (addrOperand nnn)).advance

/-- JP V0, nnn (R142): the sum is masked by the write of `pc`. -/
def execJpV0 (nnn : Addr) (s : State) : Host.Outcome State Fault Refusal :=
  .next (s.setPc (addrOperand nnn + byteOperand (s.reg V0)))

/-- RND Vx, nn (R143): one draw of the free random byte, and nn. -/
def execRnd (x : RegId) (nn : Byte) (s : State) : Host.Outcome State Fault Refusal :=
  .next ((s.drawByte.2.setReg x (s.drawByte.1 &&& nn)).advance)

end Sys2Proof.Machine
end

