-- ==== Sys2Proof/Machine/Sprite.lean ====
section
/-! DEFINITION. The sprite XOR engine (spec/42_sprite.md R200 to R205). -/

namespace Sys2Proof.Machine

/-- A framebuffer being drawn on, and whether a cell has gone from 1 to 0 so far (`collide`, R203). -/
abbrev Drawing := Framebuffer × Bool

/-- The framebuffer row of sprite row `r` at origin `oy`: `(oy + r) mod 32` (R202). -/
def cellRow (oy : Byte) (r : Nat) : RowId := Fin.ofNat 32 (oy.toNat + r)

/-- The framebuffer column of sprite bit `b` at origin `ox`: `(ox + b) mod 64` (R202). -/
def cellCol (ox : Byte) (b : Nat) : ColId := Fin.ofNat 64 (ox.toNat + b)

/-- Toggles one cell and notes a collision when it was set (R203). -/
def toggleCell (q : RowId) (c : ColId) (d : Drawing) : Drawing :=
  let row : Vector Bool 64 := d.1[q.val]
  let old : Bool := row[c.val]
  ⟨d.1.set q.val (row.set c.val (!old)), d.2 || old⟩

/-- One sprite row: bit `7 - b` of the byte is the pixel at offset `b`; a 0 bit touches nothing (R201, R203). -/
def drawRow (ox oy : Byte) (r : Nat) (row : Byte) (d : Drawing) : Drawing :=
  [0, 1, 2, 3, 4, 5, 6, 7].foldl
    (fun d b => if row.getLsbD (7 - b) then toggleCell (cellRow oy r) (cellCol ox b) d else d) d

/-- The `n` rows of a sprite, top row first; row `r` is the byte at `(I + r) & 0xFFF` (R200, R203). -/
def drawSprite (s : State) (ox oy : Byte) (n : Nat) : Drawing :=
  (List.range n).foldl (fun d r => drawRow ox oy r (s.readAt r) d) (s.fb, false)

/-- DRW Vx, Vy, n (R203, R204): the origin is read before VF is reset (R200, D15), VF ends as the collision flag, and n = 0
draws nothing (D14). -/
def execDrw (x y : RegId) (n : Nat) (s : State) : Host.Outcome State Fault Refusal :=
  let d := drawSprite s (s.reg x) (s.reg y) n
  .next (({ s.setFlag false with fb := d.1 }).setFlag d.2).advance

end Sys2Proof.Machine
end

