-- ==== Sys2Proof/Machine/TimerMemoryKeypad.lean ====
section
/-! DEFINITION. The timer, memory and keypad group, families E and F (spec/43_timer_memory_keypad.md R220 to R242). -/

namespace Sys2Proof.Machine

/-- LD Vx, DT (R220). -/
def execLdVxDt (x : RegId) (s : State) : Host.Outcome State Fault Refusal :=
  .next (s.setReg x s.dt).advance

/-- LD DT, Vx (R221). -/
def execLdDtVx (x : RegId) (s : State) : Host.Outcome State Fault Refusal :=
  .next (s.setDt (s.reg x)).advance

/-- LD ST, Vx (R222). -/
def execLdStVx (x : RegId) (s : State) : Host.Outcome State Fault Refusal :=
  .next (s.setSt (s.reg x)).advance

/-- ADD I, Vx (R225, D7): the exact sum, masked; VF says whether it passed 0xFFF, and is written last. -/
def execAddI (x : RegId) (s : State) : Host.Outcome State Fault Refusal :=
  let t := s.index.toNat + (s.reg x).toNat
  .next (((s.setIndex (BitVec.ofNat 16 (t % 4096))).setFlag (indexFlag s.index (s.reg x))).advance)

/-- LD F, Vx (R226): five times the whole register value (C8). -/
def execLdF (x : RegId) (s : State) : Host.Outcome State Fault Refusal :=
  .next (s.setIndex (byteOperand (s.reg x) * 5)).advance

/-- LD B, Vx (R227): three decimal digits at I, I + 1, I + 2. -/
def execLdB (x : RegId) (s : State) : Host.Outcome State Fault Refusal :=
  let p := memWriteFrom s.index 0 (decimalDigits (s.reg x)) (s, [])
  .next (reportSuppressed s.pc (encode (.ldB x)) (p.1.advance, p.2))

/-- `I <- (I + x + 1) & 0xFFF`, after a range copy (R228, R229, D7). -/
def State.bumpIndex (x : RegId) (s : State) : State :=
  s.setIndex (mask12 (s.index + BitVec.ofNat 16 (x.val + 1)))

/-- LD [I], Vx (R228): V0 to Vx into memory from I, then I moves past them. -/
def execStoreRegs (x : RegId) (s : State) : Host.Outcome State Fault Refusal :=
  let p := memWriteFrom s.index 0 (s.rangeBytes x) (s, [])
  .next (reportSuppressed s.pc (encode (.storeRegs x)) ((p.1.bumpIndex x).advance, p.2))

/-- LD Vx, [I] (R229): memory from I into V0 to Vx, then I moves past them; every address uses the old I. -/
def execLoadRegs (x : RegId) (s : State) : Host.Outcome State Fault Refusal :=
  let t := (regRange x).foldl (fun u r => u.setReg r (s.readAt r.val)) s
  .next (t.bumpIndex x).advance

/-- LD Vx, K (R236, R237): one scan; with no latch true nothing changes, `pc` included. -/
def execLdVxK (x : RegId) (s : State) : Host.Outcome State Fault Refusal :=
  match s.scanKeys with
  | some k => .next (s.setReg x (keyByte k)).advance
  | none => .next s

/-- SKP Vx (R240): one latch read. -/
def execSkp (x : RegId) (s : State) : Host.Outcome State Fault Refusal :=
  .next (s.skipIf (s.latch 0 (lowNibble (s.reg x))))

/-- SKNP Vx (R241): one latch read. -/
def execSknp (x : RegId) (s : State) : Host.Outcome State Fault Refusal :=
  .next (s.skipIf (!s.latch 0 (lowNibble (s.reg x))))

end Sys2Proof.Machine
end

