-- ==== Sys2Proof/Machine/Ports.lean ====
section
/-! DEFINITION. The timer unit, the ports of the block and the events of the agents outside the engine
(spec/10_state.md R60 to R68, spec/60_exceptions.md R280 to R287, spec/70_reset_and_hazards.md R302, R305). -/

namespace Sys2Proof.Machine

/-- One step toward zero, never below (R280). -/
def countDown (b : Byte) : Byte := if b = 0 then 0 else b - 1

namespace State

/-- Port `tick` (R61, R280): both timers in one event; nothing else changes. -/
def tick (s : State) : State := { s with dt := countDown s.dt, st := countDown s.st }

/-- Port `set_key(index, pressed)` (R62). -/
def setKey (e : KeyEvent) (s : State) : State := { s with key := landKey s.key e }

/-- Port `load(bytes)` (R63, R305, D17; log 16): none when the program is longer than 3584 bytes (rejected: the loader reports
the error to the host), else the bytes copied verbatim from 0x200 upward. -/
def load (bytes : List Byte) (s : State) : Option State :=
  if bytes.length > Config.progMax then none
  else some { s with mem := s.mem.writeBytes Config.progBase bytes }

/-- Port `framebuffer` (R64): the whole grid. -/
def framebufferPort (s : State) : Framebuffer := s.fb

/-- Port `sound` (R65): the value of ST. -/
def soundPort (s : State) : Byte := s.st

/-- Non-zero means "emit tone", zero means "silent" (R65). -/
def soundOn (s : State) : Bool := s.soundPort != 0

/-- Port `fault_report` (R66): the reports in order. -/
def faultReportPort (s : State) : List FaultReport := s.faults

/-- One outside event. A rejected load changes nothing (R305). -/
def hostEvent (s : State) : HostEvent → State
  | .tick => s.tick
  | .setKey e => s.setKey e
  | .load bytes => (s.load bytes).getD s

/-- Outside events one after another. -/
def hostEvents (s : State) (es : List HostEvent) : State := es.foldl hostEvent s

/-- What falls before the fetch of the coming step: the events of the agenda's head slot, in order, which are used up; the
key events that will fall during it stay in the slot (R84, R264; log 5). -/
def beginStep (s : State) : State :=
  match s.agenda with
  | [] => s
  | slot :: rest => { s.hostEvents slot.before with agenda := { slot with before := [] } :: rest }

/-- The end of a step: the key events that fell during it have all landed (R85), and its slot of the agenda is used up. -/
def endStep (s : State) : State :=
  { s with key := landKeys s.key s.arrivals.flatten, agenda := s.agenda.tail }

/-- The state after reset for a font and a fill other than the default ones (R7: FONT and INIT_FILL are parameters; log 2,
log 3): `reset` with those bytes in memory. -/
def resetWith (font : Vector Byte 80) (fill : Vector Byte 4016) : State :=
  { reset with mem := (reset.mem.writeBytes 0 font.toList).writeBytes Config.fontSize fill.toList }

end State

end Sys2Proof.Machine
end

