-- ==== Sys2Proof/Machine/Fetch.lean ====
section
/-! DEFINITION. The fetch of an instruction word, the recovery from a word that is no instruction, and the placing of a word
where the next fetch reads it (spec/30_encoding.md R100, R107, spec/20_memory.md R73, R76). -/

namespace Sys2Proof.Machine.State

/-- `MemRead(pc, 1) ++ MemRead(pc + 1, 1)`: big-endian, legal at every pc, the second byte wrapped (R73, R76, R77). -/
def fetchWord (s : State) : Word := beWord (s.read (toAddr s.pc)) (s.read (toAddr (s.pc + 1)))

/-- A word that matches no row: the report and pc + 2, nothing else (R100, R107, R263). -/
def decodeFault (s : State) : State := s.takeFault .decode s.fetchWord

/-- A family-8 word with an undefined selector: the report and pc + 2, nothing else (R100, R180, R263). -/
def selectorFault (s : State) : State := s.takeFault .arithSelector s.fetchWord

/-- An outside event that stores into memory. -/
def isLoad : HostEvent → Bool
  | .load _ => true
  | .tick | .setKey _ => false

/-- The agenda with no load before the coming step. -/
def withoutLoad : List Slot → List Slot
  | [] => []
  | slot :: rest => { slot with before := slot.before.filter (fun e => !isLoad e) } :: rest

/-- The two bytes of `w` where the coming step fetches, whatever is reserved there, and no load before that fetch (log 17). -/
def placeWord (w : Word) (s : State) : State :=
  let t := (s.setByte (toAddr s.pc) (w.extractLsb' 8 8)).setByte (toAddr (s.pc + 1)) (w.extractLsb' 0 8)
  { t with agenda := withoutLoad s.agenda }

end Sys2Proof.Machine.State
end

