-- ==== Sys2Proof/Machine/Step.lean ====
section
/-! DEFINITION. One `step` event (spec/30_encoding.md R100): what the outside world does before it, one fetch, one decode,
one execute, and the key events that fell during it. -/

namespace Sys2Proof.Machine

/-- The rest of an outcome after the instruction itself: `endStep` on the next state. -/
def finish : Host.Outcome State Fault Refusal → Host.Outcome State Fault Refusal
  | .next t => .next t.endStep
  | .fault r => .fault r
  | .refused r => .refused r

/-- One fetch, one decode, one execute (R100). The cycle adds no advance of its own (R104). -/
def cycle (s : State) : Host.Outcome State Fault Refusal :=
  match decodeWord s.fetchWord with
  | .insn i => exec i s
  | .decodeFault => .next s.decodeFault
  | .selectorFault => .next s.selectorFault

/-- One step of the machine: the outside events of its slot, the cycle, the end of the slot. -/
def step (s : State) : Host.Outcome State Fault Refusal := finish (cycle s.beginStep)

/-- `s` with the word that the host numbers (`nbits`, `w`) where the next step fetches (log 17). -/
def State.withFetchWord (s : State) (nbits w : Nat) : State := s.placeWord (tableWord nbits w)

end Sys2Proof.Machine
end

