-- ==== Sys2Proof/Safety.lean ====
section
/-! DEFINITION. The terms in which claims about the machine are stated: what a transition leaves alone, which states are
legal, what a sprite covers, and runs under a schedule of outside events. -/

namespace Sys2Proof.Machine

/-! ## Frames -/

/-- The parts of the state, each of which a transition changes or keeps. -/
inductive Part
  | regs | pc | index | mem | stack | sp | dt | st | key | fb | faults | agenda | draws
deriving DecidableEq, Repr

/-- What it means that a part reads the same in two states. Memory is compared byte by byte, through `State.read`. -/
def Part.same (p : Part) (s t : State) : Prop :=
  match p with
  | .regs => ∀ r, t.reg r = s.reg r
  | .pc => t.pc = s.pc
  | .index => t.index = s.index
  | .mem => ∀ a, t.read a = s.read a
  | .stack => t.stack = s.stack
  | .sp => t.sp = s.sp
  | .dt => t.dt = s.dt
  | .st => t.st = s.st
  | .key => t.key = s.key
  | .fb => ∀ q c, t.pixel q c = s.pixel q c
  | .faults => t.faults = s.faults
  | .agenda => t.agenda = s.agenda
  | .draws => t.draws = s.draws

/-- Every part but those listed reads the same. -/
def OnlyChanges (ps : List Part) (s t : State) : Prop := ∀ p, p ∉ ps → p.same s t

/-- Every register but those listed reads the same. -/
def RegsKept (rs : List RegId) (s t : State) : Prop := ∀ r, r ∉ rs → t.reg r = s.reg r

/-- Every byte of memory but those at the addresses listed reads the same. -/
def BytesKept (as : List Addr) (s t : State) : Prop := ∀ a, a ∉ as → t.read a = s.read a

/-- The program counter has advanced by `k`, modulo 4096 (R33, R34). -/
def NextPc (k : Nat) (s t : State) : Prop := t.pc.toNat = (s.pc.toNat + k) % 4096

/-! ## Words by their hexadecimal pattern (R105) -/

/-- The word `f000 + nnn`. -/
def wordNNN (base : Nat) (nnn : Addr) : Word := BitVec.ofNat 16 (base + nnn.toNat)

/-- The word `f0ss` with X in its second digit. -/
def wordX (base : Nat) (x : RegId) : Word := BitVec.ofNat 16 (base + x.val * 256)

/-- The word `f000` with X in its second digit and NN in its low byte. -/
def wordXNN (base : Nat) (x : RegId) (nn : Byte) : Word := BitVec.ofNat 16 (base + x.val * 256 + nn.toNat)

/-- The word `f00s` with X and Y in its second and third digits. -/
def wordXY (base : Nat) (x y : RegId) : Word := BitVec.ofNat 16 (base + x.val * 256 + y.val * 16)

/-- The word `f000` with X, Y and N in its last three digits. -/
def wordXYN (base : Nat) (x y : RegId) (n : Nat) : Word := BitVec.ofNat 16 (base + x.val * 256 + y.val * 16 + n)

/-! ## Instruction stores (R74, R224) -/

/-- The addresses of `n` consecutive bytes from `I`, wrapped, in order: the ones an index store tries. -/
def storeAddrs (s : State) (n : Nat) : List Addr := (List.range n).map (offsetAddr s.index)

/-- The fault log after stores at `as` by the instruction of word `w`: one report that lists the reserved addresses among
them, in order, or nothing new if there is none. -/
def faultsAfterStores (s : State) (w : Word) (as : List Addr) : List FaultReport :=
  if as.filter isReserved = [] then s.faults
  else s.faults ++ [⟨.reservedWrite (as.filter isReserved), s.pc, w⟩]

/-! ## What a sprite covers (R200 to R202) -/

/-- A 1 bit of the `n` rows at I, drawn at origin `(ox, oy)`, falls on the cell of row `q` and column `c`. -/
def SpriteCovers (s : State) (ox oy : Byte) (n : Nat) (q : RowId) (c : ColId) : Prop :=
  ∃ r b, r < n ∧ b < 8 ∧ (s.readAt r).getLsbD (7 - b) = true ∧
    q.val = (oy.toNat + r) % 32 ∧ c.val = (ox.toNat + b) % 64

/-! ## The invariant of the machine -/

/-- A report is legal when its address is a memory address and every suppressed address it lists is reserved (R74, R262). -/
def FaultReport.legal (r : FaultReport) : Prop :=
  r.pc0.toNat < 4096 ∧
    match r.cause with
    | .reservedWrite as => as ≠ [] ∧ ∀ a ∈ as, isReserved a = true
    | _ => True

/-- The invariant of every state a run meets: memory is canonical, `pc`, `I` and every stack slot hold 12-bit values (R32,
R33, R35), and every report is legal. -/
structure MachineInv (s : State) : Prop where
  mem : s.mem.wf = true
  pc : s.pc.toNat < 4096
  index : s.index.toNat < 4096
  stack : ∀ k : Fin 16, (s.stack[k.val]).toNat < 4096
  faults : ∀ r ∈ s.faults, r.legal

/-! ## Runs under a schedule (R281, R316) -/

/-- What the outside world does around each step of an infinite run. -/
abbrev Schedule := Nat → Slot

/-- The timer unit takes infinitely many events: the half of weak fairness that a schedule can break, since a run under a
schedule takes infinitely many steps (R281). -/
def FairSchedule (sch : Schedule) : Prop := ∀ n, ∃ m, n ≤ m ∧ HostEvent.tick ∈ (sch m).before

/-- A schedule in which no program is loaded. -/
def NoLoads (sch : Schedule) : Prop := ∀ n bytes, HostEvent.load bytes ∉ (sch n).before

/-- The state after one step with one slot of outside events around it. -/
def stepIn (slot : Slot) (s : State) : State :=
  match step { s with agenda := [slot] } with
  | .next t => t
  | .fault _ | .refused _ => s

/-- The state after `k` steps under a schedule (R316). -/
def runSchedule (sch : Schedule) (s : State) : Nat → State
  | 0 => s
  | k + 1 => stepIn (sch k) (runSchedule sch s k)

/-- An idle point: `pc` is at a `1NNN` word whose `nnn` is its own address (R316). -/
def AtIdlePoint (s : State) : Prop :=
  s.pc.toNat < 4096 ∧ decodeWord s.fetchWord = .insn (.jp (toAddr s.pc))

/-- No fault occurred: the claim form of R263. -/
def FaultFree (s : State) : Prop := s.faults = []

end Sys2Proof.Machine
end

