-- ==== Sys2Proof/Certificates/Slice0/Obligations.lean ====
section
/-! DEFINITION. The statements about the machine, for the provers. Each docstring names the rule of spec/ it formalises. -/

open Sys2Proof Sys2Proof.Machine

/-! ## Reset and the invariant -/

/-- R50: at reset every field holds the reset value of the table, for every FONT (R7, R37): the font at 0x000 to 0x04F, 0x00
in the rest of memory. -/
def Obligations.ResetLeavesEveryFieldAtItsValue : Prop :=
  ∀ (font : Vector Byte 80) (s : State), s = State.resetWith font (Vector.replicate 4016 0) →
    (∀ r, s.reg r = 0) ∧ s.pc = 0x200 ∧ s.index = 0 ∧
    (∀ a : Fin 80, s.read (BitVec.ofNat 12 a.val) = font[a.val]) ∧
    (∀ a : Addr, 80 ≤ a.toNat → s.read a = 0) ∧
    (∀ k : Fin 16, s.stack[k.val] = 0) ∧ s.sp = 0 ∧ s.dt = 0 ∧ s.st = 0 ∧
    (∀ k : KeyId, s.key[k.val] = false) ∧ (∀ q c, s.pixel q c = false) ∧ s.faults = []

/-- R37, R50: the state that the host starts from is that reset with the default FONT table of R37. The table is the spec's own
general knowledge (D2, G4): the model's choice of FONT, log 2; the fill is D3, log 3. -/
def Obligations.ResetTakesTheDefaultFont : Prop :=
  ∀ font : Vector Byte 80, font.toList = defaultFont →
    State.resetWith font (Vector.replicate 4016 0) = Sys2Proof.core.reset

/-- The reset state meets the invariant that every step keeps. That memory is canonical is the model's own form, log 21; the
other clauses are R50's reset values. -/
def Obligations.ResetMeetsTheInvariant : Prop := MachineInv State.reset

/-- From every state that meets it, whatever the outside world does around the step, a step leads to a state that meets it:
memory canonical (the model's own form, log 21), pc, I and the stack slots 12-bit values (R32, R33, R35, R38), reports legal
(R74, R262). -/
def Obligations.EveryStepKeepsTheInvariant : Prop :=
  ∀ s t, MachineInv s → step s = .next t → MachineInv t

/-! ## Encoding -/

/-- R105: one word of every family, written from the table, and one word of every kind that matches no row. -/
def Obligations.SampleWordsDecodeAsTheTableSays : Prop :=
  decodeWord 0x00E0 = .insn .cls ∧ decodeWord 0x1234 = .insn (.jp 0x234) ∧
  decodeWord 0x2ABC = .insn (.call 0xABC) ∧ decodeWord 0x3342 = .insn (.seImm 3 0x42) ∧
  decodeWord 0x4943 = .insn (.sneImm 9 0x43) ∧ decodeWord 0x7003 = .insn (.addImm 0 0x03) ∧
  decodeWord 0xB301 = .insn (.jpV0 0x301) ∧
  decodeWord 0x5120 = .insn (.seReg 1 2) ∧ decodeWord 0x6FAA = .insn (.ldImm 15 0xAA) ∧
  decodeWord 0x81F4 = .insn (.addReg 1 15) ∧ decodeWord 0x8FE6 = .insn (.shr 15 14) ∧
  decodeWord 0x9120 = .insn (.sneReg 1 2) ∧ decodeWord 0xA2F0 = .insn (.ldI 0x2F0) ∧
  decodeWord 0xC50F = .insn (.rnd 5 0x0F) ∧ decodeWord 0xD015 = .insn (.drw 0 1 5) ∧
  decodeWord 0xE29E = .insn (.skp 2) ∧ decodeWord 0xF265 = .insn (.loadRegs 2) ∧
  decodeWord 0x00E1 = .decodeFault ∧ decodeWord 0x5121 = .decodeFault ∧
  decodeWord 0xF0FF = .decodeFault ∧ decodeWord 0x812F = .selectorFault

/-- Decoding the word of a well-formed instruction gives it back, for every instruction and every operand (R102, R103, R105). -/
def Obligations.DecodeOfEncodeIsTheInstruction : Prop :=
  ∀ i : Instr, i.wf = true → decodeWord (encode i) = .insn i

/-- Every word that decodes is the word of the instruction it decodes to, and that instruction is well formed: no bit of a word
is lost, the unread nibble of SHR and SHL included (R102, R105; the model keeps it, log 14). -/
def Obligations.EncodeOfDecodeIsTheWord : Prop :=
  ∀ w i, decodeWord w = .insn i → i.wf = true ∧ encode i = w

/-- R106: the decoder agrees with the masks and matches of spec/opcode_table.json. A word that matches a row decodes to an
instruction of that row, and a word decodes only to an instruction whose row it matches; so no two rows overlap. -/
def Obligations.DecoderAgreesWithTheOpcodeTable : Prop :=
  ∀ w i, (decodeWord w = .insn i → i.row.matches w = true) ∧
    (i.row.matches w = true → ∃ j, decodeWord w = .insn j ∧ j.row = i.row)

/-- R106, R107: a word that matches no row of spec/opcode_table.json is reported, as an arithmetic-selector fault in family 8 and
as a decode fault elsewhere, with its address and itself; pc moves to the next word and nothing else changes. -/
def Obligations.WordThatMatchesNoRowIsReportedAndPassed : Prop :=
  ∀ s : State, (∀ i : Instr, i.row.matches s.fetchWord = false) →
    ∃ t, cycle s = .next t ∧
      t.faults = s.faults ++
        [⟨if s.fetchWord.toNat / 4096 = 8 then .arithSelector else .decode, s.pc, s.fetchWord⟩] ∧
      NextPc 2 s t ∧ OnlyChanges [.pc, .faults] s t

/-- R107, R180, R230, R242: the same by the words themselves, family by family: a decode fault for a word of families 0, 5, 9,
E and F outside its rows, an arithmetic-selector fault for a family-8 word with an undefined selector; one report, pc + 2, and
nothing else changes. -/
def Obligations.UndefinedWordsOfEachFamilyAreReported : Prop :=
  ∀ (s : State) (w f : Nat), w = s.fetchWord.toNat → f = w / 4096 →
    ((f = 0 ∧ w ≠ 0x00E0 ∧ w ≠ 0x00EE) ∨ ((f = 5 ∨ f = 9) ∧ w % 16 ≠ 0) ∨
        (f = 14 ∧ w % 256 ∉ [0x9E, 0xA1]) ∨
        (f = 15 ∧ w % 256 ∉ [0x07, 0x0A, 0x15, 0x18, 0x1E, 0x29, 0x33, 0x55, 0x65]) →
      ∃ t, cycle s = .next t ∧ t.faults = s.faults ++ [⟨.decode, s.pc, s.fetchWord⟩] ∧ NextPc 2 s t ∧
        OnlyChanges [.pc, .faults] s t) ∧
    (f = 8 ∧ w % 16 ∈ [0x8, 0x9, 0xA, 0xB, 0xC, 0xD, 0xF] →
      ∃ t, cycle s = .next t ∧ t.faults = s.faults ++ [⟨.arithSelector, s.pc, s.fetchWord⟩] ∧ NextPc 2 s t ∧
        OnlyChanges [.pc, .faults] s t)

/-! ## The cycle -/

/-- R76: the fetched word is the byte at pc and the byte at (pc + 1) mod 4096, big-endian, at every pc; at 0xFFF the second byte
comes from 0x000. -/
def Obligations.FetchIsBigEndianAndWraps : Prop :=
  ∀ s : State,
    s.fetchWord.toNat = (s.read (BitVec.ofNat 12 s.pc.toNat)).toNat * 256
      + (s.read (BitVec.ofNat 12 (s.pc.toNat + 1))).toNat ∧
    (s.pc = 0xFFF → s.fetchWord.toNat = (s.read 0xFFF).toNat * 256 + (s.read 0x000).toNat)

/-- R100, R104: a step whose fetched word decodes to `i` is exec of `i` after the outside events of its slot, and at the end the
key events that fell during it have landed and the slot is used up. With no outside event nothing is added around exec. The
slot, its events and where they fall are the model's own form of R84 and R85: the agenda of log 4, in the order of log 5. -/
def Obligations.StepRunsTheDecodedInstruction : Prop :=
  (∀ s i t, decodeWord s.beginStep.fetchWord = .insn i → exec i s.beginStep = .next t →
    step s = .next { t with key := landKeys t.key t.arrivals.flatten, agenda := t.agenda.tail }) ∧
  (∀ s i t, s.agenda = [] → decodeWord s.fetchWord = .insn i → exec i s = .next t →
    step s = .next t)

/-- R84, R264: the outside events before a step and the step itself fall in one order: a step with events in its slot is the
same step from the state those events lead to, with none left. The agenda is the model's form of that order, log 4. -/
def Obligations.EventsBeforeAStepComeFirst : Prop :=
  ∀ s slot rest, s.agenda = slot :: rest →
    step s = step { s.hostEvents slot.before with agenda := { slot with before := [] } :: rest }

/-- R260: the core never traps and nothing halts it (R290): every step from every state answers a next state. -/
def Obligations.EveryStepAnswersANextState : Prop := ∀ s, ∃ t, step s = .next t

/-- R36: no step changes a byte below 0x200, whatever the program does and whatever is loaded. -/
def Obligations.ReservedRegionIsNeverOverwritten : Prop :=
  ∀ s t, step s = .next t → ∀ a : Addr, a.toNat < 0x200 → t.read a = s.read a

/-- R264: a step raises at most one fault report, and the log only grows at its end (R45). -/
def Obligations.StepRaisesAtMostOneReport : Prop :=
  ∀ s t, step s = .next t → t.faults = s.faults ∨ ∃ r, t.faults = s.faults ++ [r]

/-- R261: which instruction raises which fault: StackDiscipline only from RET and CALL, ReservedWrite only from FX33 and FX55,
Decode and ArithSelector from none, and every other instruction leaves the log alone. -/
def Obligations.FaultKindsComeOnlyFromTheirInstructions : Prop :=
  ∀ i s t, exec i s = .next t → t.faults ≠ s.faults →
    (i = .ret ∧ t.faults = s.faults ++ [⟨.stackDiscipline .underflow, s.pc, encode i⟩]) ∨
    (∃ nnn, i = .call nnn ∧ t.faults = s.faults ++ [⟨.stackDiscipline .overflow, s.pc, encode i⟩]) ∨
    (∃ x as, (i = .ldB x ∨ i = .storeRegs x) ∧
      t.faults = s.faults ++ [⟨.reservedWrite as, s.pc, encode i⟩])

/-- R42: an instruction other than 8XY4, 8XY5, 8XY6, 8XY7, 8XYE, DXYN and FX1E changes VF only as its named destination: the x
of a register load or computation, or one of V0 to Vx of FX65 with x = F. -/
def Obligations.OnlyFlagWritersChangeVF : Prop :=
  ∀ i s t, exec i s = .next t → t.reg VF ≠ s.reg VF →
    (∃ x y, i = .addReg x y ∨ i = .subReg x y ∨ i = .shr x y ∨ i = .subnReg x y ∨ i = .shl x y) ∨
    (∃ x y n, i = .drw x y n) ∨ (∃ x, i = .addI x) ∨
    (∃ nn, i = .ldImm VF nn ∨ i = .addImm VF nn ∨ i = .rnd VF nn) ∨
    (∃ y, i = .ldReg VF y ∨ i = .orReg VF y ∨ i = .andReg VF y ∨ i = .xorReg VF y) ∨
    i = .ldVxDt VF ∨ i = .ldVxK VF ∨ i = .loadRegs VF

/-- Which instructions write the state outside the general registers (R35, R38, R39, R40, R41, R286): SP and the stack only RET
and CALL, I only ANNN, FX1E, FX29, FX55 and FX65, memory only FX33 and FX55, DT only FX15, ST only FX18, the framebuffer only CLS
and DRW; and no instruction writes a key latch or the agenda. The clauses on the count of draws and on the agenda are about the
model's own fields, log 1 and log 4. -/
def Obligations.EachPartHasOnlyItsWriters : Prop :=
  ∀ i s t, exec i s = .next t →
    (t.sp ≠ s.sp → i = .ret ∨ ∃ nnn, i = .call nnn) ∧
    (t.stack ≠ s.stack → ∃ nnn, i = .call nnn) ∧
    (t.index ≠ s.index →
      (∃ nnn, i = .ldI nnn) ∨ ∃ x, i = .addI x ∨ i = .ldF x ∨ i = .storeRegs x ∨ i = .loadRegs x) ∧
    (t.mem ≠ s.mem → ∃ x, i = .ldB x ∨ i = .storeRegs x) ∧
    (t.dt ≠ s.dt → ∃ x, i = .ldDtVx x) ∧
    (t.st ≠ s.st → ∃ x, i = .ldStVx x) ∧
    (t.fb ≠ s.fb → i = .cls ∨ ∃ x y n, i = .drw x y n) ∧
    (t.draws ≠ s.draws → ∃ x nn, i = .rnd x nn) ∧
    t.key = s.key ∧ t.agenda = s.agenda

/-- R39, R45: no instruction reads ST or the fault log. With both replaced before an instruction, it does the same and reports
the same; ST is what it was replaced by, or, after FX18, what FX18 wrote. -/
def Obligations.NoInstructionReadsSoundTimerOrFaultLog : Prop :=
  ∀ i s t b fs, exec i s = .next t →
    ∃ new c, t.faults = s.faults ++ new ∧
      ((∃ x, i = .ldStVx x) → c = t.st) ∧ ((∀ x, i ≠ .ldStVx x) → c = b) ∧
      exec i { s with st := b, faults := fs } = .next { t with st := c, faults := fs ++ new }

/-! ## Control flow and direct loads -/

/-- R131: CLS, 00E0. -/
def Obligations.ClearDisplayZeroesEveryPixel : Prop :=
  decodeWord 0x00E0 = .insn .cls ∧
  ∀ s, ∃ t, exec .cls s = .next t ∧ (∀ q c, t.pixel q c = false) ∧ NextPc 2 s t ∧
    OnlyChanges [.fb, .pc] s t

/-- R132: RET, 00EE: with a frame on the stack it goes on two bytes after the popped address; with none it reports Underflow
and goes on at the next word. -/
def Obligations.ReturnPopsOrReportsUnderflow : Prop :=
  decodeWord 0x00EE = .insn .ret ∧
  ∀ s : State,
    (∀ h : 0 < s.sp.val, ∃ t, exec .ret s = .next t ∧ t.sp.val = s.sp.val - 1 ∧
      t.pc.toNat = ((s.stack[s.sp.val - 1]).toNat + 2) % 4096 ∧ OnlyChanges [.sp, .pc] s t) ∧
    (s.sp = 0 → ∃ t, exec .ret s = .next t ∧
      t.faults = s.faults ++ [⟨.stackDiscipline .underflow, s.pc, 0x00EE⟩] ∧ NextPc 2 s t ∧
      OnlyChanges [.pc, .faults] s t)

/-- R133: JP nnn, 1NNN. -/
def Obligations.JumpGoesToItsAddress : Prop :=
  ∀ nnn : Addr, decodeWord (wordNNN 0x1000 nnn) = .insn (.jp nnn) ∧
    ∀ s, ∃ t, exec (.jp nnn) s = .next t ∧ t.pc.toNat = nnn.toNat ∧ OnlyChanges [.pc] s t

/-- R134: CALL nnn, 2NNN: with a free slot it stores its own address there and goes; with none it reports Overflow, pushes
nothing and goes on at the next word. -/
def Obligations.CallPushesOrReportsOverflow : Prop :=
  ∀ nnn : Addr, decodeWord (wordNNN 0x2000 nnn) = .insn (.call nnn) ∧
    ∀ s : State,
      (∀ h : s.sp.val < 16, ∃ t, exec (.call nnn) s = .next t ∧ t.sp.val = s.sp.val + 1 ∧
        t.stack[s.sp.val] = s.pc ∧ (∀ k : Fin 16, k.val ≠ s.sp.val → t.stack[k.val] = s.stack[k.val]) ∧
        t.pc.toNat = nnn.toNat ∧ OnlyChanges [.sp, .stack, .pc] s t) ∧
      (s.sp = 16 → ∃ t, exec (.call nnn) s = .next t ∧
        t.faults = s.faults ++ [⟨.stackDiscipline .overflow, s.pc, wordNNN 0x2000 nnn⟩] ∧ NextPc 2 s t ∧
        OnlyChanges [.pc, .faults] s t)

/-- R134 and R132 together (C1): a call that has a free slot, then a return, goes on at the word after the call with the stack
pointer as before. -/
def Obligations.ReturnUndoesCall : Prop :=
  ∀ nnn s t u, s.sp.val < 16 → exec (.call nnn) s = .next t → exec .ret t = .next u →
    u.sp = s.sp ∧ NextPc 2 s u ∧ OnlyChanges [.stack, .pc] s u

/-- R135, R136: SE Vx, nn (3XNN) and SNE Vx, nn (4XNN). -/
def Obligations.SkipComparesRegisterAndImmediate : Prop :=
  ∀ (x : RegId) (nn : Byte),
    decodeWord (wordXNN 0x3000 x nn) = .insn (.seImm x nn) ∧
    decodeWord (wordXNN 0x4000 x nn) = .insn (.sneImm x nn) ∧
    ∀ s : State,
      (∃ t, exec (.seImm x nn) s = .next t ∧ NextPc (if (s.reg x).toNat = nn.toNat then 4 else 2) s t ∧
        OnlyChanges [.pc] s t) ∧
      (∃ t, exec (.sneImm x nn) s = .next t ∧ NextPc (if (s.reg x).toNat = nn.toNat then 2 else 4) s t ∧
        OnlyChanges [.pc] s t)

/-- R137, R138: SE Vx, Vy (5XY0) and SNE Vx, Vy (9XY0); a low nibble other than 0 is a decode fault. -/
def Obligations.SkipComparesTwoRegisters : Prop :=
  ∀ x y : RegId,
    decodeWord (wordXY 0x5000 x y) = .insn (.seReg x y) ∧
    decodeWord (wordXY 0x9000 x y) = .insn (.sneReg x y) ∧
    (∀ n, 0 < n → n < 16 → decodeWord (wordXYN 0x5000 x y n) = .decodeFault ∧
      decodeWord (wordXYN 0x9000 x y n) = .decodeFault) ∧
    ∀ s : State,
      (∃ t, exec (.seReg x y) s = .next t ∧
        NextPc (if (s.reg x).toNat = (s.reg y).toNat then 4 else 2) s t ∧ OnlyChanges [.pc] s t) ∧
      (∃ t, exec (.sneReg x y) s = .next t ∧
        NextPc (if (s.reg x).toNat = (s.reg y).toNat then 2 else 4) s t ∧ OnlyChanges [.pc] s t)

/-- R139: LD Vx, nn, 6XNN; with x = F the destination is VF itself. -/
def Obligations.LoadImmediateSetsTheRegister : Prop :=
  ∀ (x : RegId) (nn : Byte), decodeWord (wordXNN 0x6000 x nn) = .insn (.ldImm x nn) ∧
    ∀ s, ∃ t, exec (.ldImm x nn) s = .next t ∧ t.reg x = nn ∧ RegsKept [x] s t ∧ NextPc 2 s t ∧
      OnlyChanges [.regs, .pc] s t

/-- R140: ADD Vx, nn, 7XNN: wraps modulo 256 and leaves VF alone unless x = F. -/
def Obligations.AddImmediateWrapsWithoutFlag : Prop :=
  ∀ (x : RegId) (nn : Byte), decodeWord (wordXNN 0x7000 x nn) = .insn (.addImm x nn) ∧
    ∀ s, ∃ t, exec (.addImm x nn) s = .next t ∧ (t.reg x).toNat = ((s.reg x).toNat + nn.toNat) % 256 ∧
      RegsKept [x] s t ∧ NextPc 2 s t ∧ OnlyChanges [.regs, .pc] s t

/-- R141: LD I, nnn, ANNN. -/
def Obligations.LoadIndexSetsTheIndex : Prop :=
  ∀ nnn : Addr, decodeWord (wordNNN 0xA000 nnn) = .insn (.ldI nnn) ∧
    ∀ s, ∃ t, exec (.ldI nnn) s = .next t ∧ t.index.toNat = nnn.toNat ∧ NextPc 2 s t ∧
      OnlyChanges [.index, .pc] s t

/-- R142: JP V0, nnn, BNNN: the sum modulo 4096. -/
def Obligations.JumpWithOffsetAddsV0 : Prop :=
  ∀ nnn : Addr, decodeWord (wordNNN 0xB000 nnn) = .insn (.jpV0 nnn) ∧
    ∀ s : State, ∃ t, exec (.jpV0 nnn) s = .next t ∧
      t.pc.toNat = (nnn.toNat + (s.reg 0).toNat) % 4096 ∧ OnlyChanges [.pc] s t

/-- R143: RND Vx, nn, CXNN: the drawn byte, a free value of which nothing is known, and nn. -/
def Obligations.RandomAndMasksOneDraw : Prop :=
  ∀ (x : RegId) (nn : Byte), decodeWord (wordXNN 0xC000 x nn) = .insn (.rnd x nn) ∧
    ∀ s : State, ∃ t, exec (.rnd x nn) s = .next t ∧
      (∀ i, i < 8 → (t.reg x).getLsbD i = ((Config.drawByte s.draws).getLsbD i && nn.getLsbD i)) ∧
      RegsKept [x] s t ∧ NextPc 2 s t ∧ OnlyChanges [.regs, .pc, .draws] s t

/-- R67, R143: each execution of RND consumes one draw, so that the next one is another. The counter is the model's own, log 1. -/
def Obligations.RandomConsumesOneDraw : Prop :=
  ∀ x nn s t, exec (.rnd x nn) s = .next t → t.draws = s.draws + 1

/-! ## Arithmetic and logic -/

/-- R171 to R174: LD, OR, AND, XOR Vx, Vy (8XY0 to 8XY3), bit by bit; VF is written only as the destination. -/
def Obligations.MoveAndLogicActBitwiseWithoutFlag : Prop :=
  ∀ x y : RegId,
    decodeWord (wordXY 0x8000 x y) = .insn (.ldReg x y) ∧ decodeWord (wordXY 0x8001 x y) = .insn (.orReg x y) ∧
    decodeWord (wordXY 0x8002 x y) = .insn (.andReg x y) ∧ decodeWord (wordXY 0x8003 x y) = .insn (.xorReg x y) ∧
    ∀ s : State,
      (∃ t, exec (.ldReg x y) s = .next t ∧ t.reg x = s.reg y ∧
        RegsKept [x] s t ∧ NextPc 2 s t ∧ OnlyChanges [.regs, .pc] s t) ∧
      (∃ t, exec (.orReg x y) s = .next t ∧
        (∀ i, i < 8 → (t.reg x).getLsbD i = ((s.reg x).getLsbD i || (s.reg y).getLsbD i)) ∧
        RegsKept [x] s t ∧ NextPc 2 s t ∧ OnlyChanges [.regs, .pc] s t) ∧
      (∃ t, exec (.andReg x y) s = .next t ∧
        (∀ i, i < 8 → (t.reg x).getLsbD i = ((s.reg x).getLsbD i && (s.reg y).getLsbD i)) ∧
        RegsKept [x] s t ∧ NextPc 2 s t ∧ OnlyChanges [.regs, .pc] s t) ∧
      (∃ t, exec (.xorReg x y) s = .next t ∧
        (∀ i, i < 8 → (t.reg x).getLsbD i = Bool.xor ((s.reg x).getLsbD i) ((s.reg y).getLsbD i)) ∧
        RegsKept [x] s t ∧ NextPc 2 s t ∧ OnlyChanges [.regs, .pc] s t)

/-- R175: ADD Vx, Vy, 8XY4: the sum modulo 256, then VF = 1 if and only if the sum exceeds 255; with x = F the flag stays. -/
def Obligations.AddSetsTheCarryFlag : Prop :=
  ∀ x y : RegId, decodeWord (wordXY 0x8004 x y) = .insn (.addReg x y) ∧
    ∀ s : State, ∃ t, exec (.addReg x y) s = .next t ∧
      (x ≠ VF → (t.reg x).toNat = ((s.reg x).toNat + (s.reg y).toNat) % 256) ∧
      t.reg VF = (if 255 < (s.reg x).toNat + (s.reg y).toNat then 1 else 0) ∧
      RegsKept [x, VF] s t ∧ NextPc 2 s t ∧ OnlyChanges [.regs, .pc] s t

/-- R176: SUB Vx, Vy, 8XY5: the difference modulo 256, then VF = 1 if and only if Vx is strictly greater. -/
def Obligations.SubtractSetsTheStrictFlag : Prop :=
  ∀ x y : RegId, decodeWord (wordXY 0x8005 x y) = .insn (.subReg x y) ∧
    ∀ s : State, ∃ t, exec (.subReg x y) s = .next t ∧
      (x ≠ VF → (t.reg x).toNat = ((s.reg x).toNat + 256 - (s.reg y).toNat) % 256) ∧
      t.reg VF = (if (s.reg y).toNat < (s.reg x).toNat then 1 else 0) ∧
      RegsKept [x, VF] s t ∧ NextPc 2 s t ∧ OnlyChanges [.regs, .pc] s t

/-- R178: SUBN Vx, Vy, 8XY7: Vy minus Vx modulo 256, then VF = 1 if and only if Vy is strictly greater. -/
def Obligations.SubtractReverseSetsTheStrictFlag : Prop :=
  ∀ x y : RegId, decodeWord (wordXY 0x8007 x y) = .insn (.subnReg x y) ∧
    ∀ s : State, ∃ t, exec (.subnReg x y) s = .next t ∧
      (x ≠ VF → (t.reg x).toNat = ((s.reg y).toNat + 256 - (s.reg x).toNat) % 256) ∧
      t.reg VF = (if (s.reg x).toNat < (s.reg y).toNat then 1 else 0) ∧
      RegsKept [x, VF] s t ∧ NextPc 2 s t ∧ OnlyChanges [.regs, .pc] s t

/-- R177: SHR Vx, 8XY6 with any y: Vx halved in place, then VF = its old bit 0; Vy is not read. -/
def Obligations.ShiftRightHalvesInPlace : Prop :=
  ∀ x y : RegId, decodeWord (wordXY 0x8006 x y) = .insn (.shr x y) ∧
    ∀ s : State, ∃ t, exec (.shr x y) s = .next t ∧
      (x ≠ VF → (t.reg x).toNat = (s.reg x).toNat / 2) ∧
      (t.reg VF).toNat = (s.reg x).toNat % 2 ∧
      RegsKept [x, VF] s t ∧ NextPc 2 s t ∧ OnlyChanges [.regs, .pc] s t

/-- R179: SHL Vx, 8XYE with any y: Vx doubled in place modulo 256, then VF = its old bit 7; Vy is not read. -/
def Obligations.ShiftLeftDoublesInPlace : Prop :=
  ∀ x y : RegId, decodeWord (wordXY 0x800E x y) = .insn (.shl x y) ∧
    ∀ s : State, ∃ t, exec (.shl x y) s = .next t ∧
      (x ≠ VF → (t.reg x).toNat = (s.reg x).toNat * 2 % 256) ∧
      (t.reg VF).toNat = (s.reg x).toNat / 128 ∧
      RegsKept [x, VF] s t ∧ NextPc 2 s t ∧ OnlyChanges [.regs, .pc] s t

/-! ## The sprite engine -/

/-- R203: DRW Vx, Vy, n, DXYN: exactly the cells that a 1 bit of the sprite falls on are toggled, VF = 1 if and only if one of
them was set, and nothing else but pc changes. The origin is read before VF is reset, so it may be VF (R200). -/
def Obligations.DrawTogglesWhatTheSpriteCovers : Prop :=
  ∀ (x y : RegId) (n : Nat), n < 16 → decodeWord (wordXYN 0xD000 x y n) = .insn (.drw x y n) ∧
    ∀ s : State, ∃ t, exec (.drw x y n) s = .next t ∧
      (∀ q c, SpriteCovers s (s.reg x) (s.reg y) n q c → t.pixel q c = !s.pixel q c) ∧
      (∀ q c, ¬SpriteCovers s (s.reg x) (s.reg y) n q c → t.pixel q c = s.pixel q c) ∧
      (t.reg VF = 1 ∨ t.reg VF = 0) ∧
      (t.reg VF = 1 ↔ ∃ q c, SpriteCovers s (s.reg x) (s.reg y) n q c ∧ s.pixel q c = true) ∧
      RegsKept [VF] s t ∧ NextPc 2 s t ∧ OnlyChanges [.regs, .fb, .pc] s t

/-- R204: a draw with n = 0 toggles no pixel, sets VF to 0 and advances by 2. -/
def Obligations.DrawOfHeightZeroDrawsNothing : Prop :=
  ∀ (x y : RegId) (s : State), ∃ t, exec (.drw x y 0) s = .next t ∧ t.reg VF = 0 ∧ RegsKept [VF] s t ∧
    NextPc 2 s t ∧ OnlyChanges [.regs, .pc] s t

/-- R205: drawing the same sprite at the same place twice (x and y other than F, so that the origin is the same) restores the
framebuffer, and the second draw reports VF = 1 if and only if the first one set a pixel. -/
def Obligations.DrawingTwiceRestoresTheFramebuffer : Prop :=
  ∀ (x y : RegId) (n : Nat) (s t u : State), n < 16 → x ≠ VF → y ≠ VF →
    exec (.drw x y n) s = .next t → exec (.drw x y n) t = .next u →
    (∀ q c, u.pixel q c = s.pixel q c) ∧
    (u.reg VF = 1 ↔ ∃ q c, s.pixel q c = false ∧ t.pixel q c = true)

/-! ## Timers, index, memory -/

/-- R220 to R222: LD Vx, DT (FX07), LD DT, Vx (FX15), LD ST, Vx (FX18); a nonzero ST turns the sound output on at once. -/
def Obligations.TimerTransfersMoveOneByte : Prop :=
  ∀ x : RegId,
    decodeWord (wordX 0xF007 x) = .insn (.ldVxDt x) ∧ decodeWord (wordX 0xF015 x) = .insn (.ldDtVx x) ∧
    decodeWord (wordX 0xF018 x) = .insn (.ldStVx x) ∧
    ∀ s : State,
      (∃ t, exec (.ldVxDt x) s = .next t ∧ t.reg x = s.dt ∧ RegsKept [x] s t ∧ NextPc 2 s t ∧
        OnlyChanges [.regs, .pc] s t) ∧
      (∃ t, exec (.ldDtVx x) s = .next t ∧ t.dt = s.reg x ∧ NextPc 2 s t ∧ OnlyChanges [.dt, .pc] s t) ∧
      (∃ t, exec (.ldStVx x) s = .next t ∧ t.st = s.reg x ∧ (t.soundOn = true ↔ (s.reg x).toNat ≠ 0) ∧
        NextPc 2 s t ∧ OnlyChanges [.st, .pc] s t)

/-- R225: ADD I, Vx, FX1E: the sum modulo 4096, then VF = 1 if and only if the sum passes 0xFFF, written every time. -/
def Obligations.AddToIndexSetsTheOverflowFlag : Prop :=
  ∀ x : RegId, decodeWord (wordX 0xF01E x) = .insn (.addI x) ∧
    ∀ s : State, ∃ t, exec (.addI x) s = .next t ∧
      t.index.toNat = (s.index.toNat + (s.reg x).toNat) % 4096 ∧
      t.reg VF = (if 0xFFF < s.index.toNat + (s.reg x).toNat then 1 else 0) ∧
      RegsKept [VF] s t ∧ NextPc 2 s t ∧ OnlyChanges [.regs, .index, .pc] s t

/-- R226: LD F, Vx, FX29: five times the whole register value. -/
def Obligations.DigitAddressIsFiveTimesTheRegister : Prop :=
  ∀ x : RegId, decodeWord (wordX 0xF029 x) = .insn (.ldF x) ∧
    ∀ s : State, ∃ t, exec (.ldF x) s = .next t ∧ t.index.toNat = (s.reg x).toNat * 5 ∧ NextPc 2 s t ∧
      OnlyChanges [.index, .pc] s t

/-- R227: LD B, Vx, FX33: the hundreds, tens and ones digits at I, I + 1, I + 2 modulo 4096; a digit whose address is reserved is
not written, and one report lists those addresses. -/
def Obligations.DecimalDigitsAreStoredAtTheIndex : Prop :=
  ∀ x : RegId, decodeWord (wordX 0xF033 x) = .insn (.ldB x) ∧
    ∀ s : State, ∃ t, exec (.ldB x) s = .next t ∧
      (∀ k, k < 3 → (offsetAddr s.index k).toNat = (s.index.toNat + k) % 4096) ∧
      (isReserved (offsetAddr s.index 0) = false →
        (t.read (offsetAddr s.index 0)).toNat = (s.reg x).toNat / 100) ∧
      (isReserved (offsetAddr s.index 1) = false →
        (t.read (offsetAddr s.index 1)).toNat = (s.reg x).toNat / 10 % 10) ∧
      (isReserved (offsetAddr s.index 2) = false →
        (t.read (offsetAddr s.index 2)).toNat = (s.reg x).toNat % 10) ∧
      BytesKept ((storeAddrs s 3).filter (fun a => !isReserved a)) s t ∧
      t.faults = faultsAfterStores s (wordX 0xF033 x) (storeAddrs s 3) ∧
      NextPc 2 s t ∧ OnlyChanges [.mem, .faults, .pc] s t

/-- R228: LD [I], Vx, FX55: V0 to Vx at I to I + x modulo 4096, then I moves past them; a byte whose address is reserved is not
written, and one report lists those addresses. -/
def Obligations.StoreRangeCopiesRegistersToMemory : Prop :=
  ∀ x : RegId, decodeWord (wordX 0xF055 x) = .insn (.storeRegs x) ∧
    ∀ s : State, ∃ t, exec (.storeRegs x) s = .next t ∧
      (∀ k, k < 16 → (offsetAddr s.index k).toNat = (s.index.toNat + k) % 4096) ∧
      (∀ r : RegId, r ≤ x → isReserved (offsetAddr s.index r.val) = false →
        t.read (offsetAddr s.index r.val) = s.reg r) ∧
      BytesKept ((storeAddrs s (x.val + 1)).filter (fun a => !isReserved a)) s t ∧
      t.index.toNat = (s.index.toNat + x.val + 1) % 4096 ∧
      t.faults = faultsAfterStores s (wordX 0xF055 x) (storeAddrs s (x.val + 1)) ∧
      NextPc 2 s t ∧ OnlyChanges [.mem, .index, .faults, .pc] s t

/-- R229: LD Vx, [I], FX65: the bytes at I to I + x modulo 4096 into V0 to Vx, then I moves past them; reads are allowed
everywhere and nothing is reported. -/
def Obligations.LoadRangeCopiesMemoryToRegisters : Prop :=
  ∀ x : RegId, decodeWord (wordX 0xF065 x) = .insn (.loadRegs x) ∧
    ∀ s : State, ∃ t, exec (.loadRegs x) s = .next t ∧
      (∀ r : RegId, r ≤ x → t.reg r = s.read (BitVec.ofNat 12 (s.index.toNat + r.val))) ∧
      (∀ r : RegId, x < r → t.reg r = s.reg r) ∧
      t.index.toNat = (s.index.toNat + x.val + 1) % 4096 ∧
      NextPc 2 s t ∧ OnlyChanges [.regs, .index, .pc] s t

/-- R229's round trip: FX55, then FX65 from the same I after the registers have been overwritten in any way, recovers V0 to Vx,
provided no address was reserved. -/
def Obligations.StoreThenLoadRecoversTheRegisters : Prop :=
  ∀ (x : RegId) (s t u : State) (junk : Vector Byte 16),
    (∀ a ∈ storeAddrs s (x.val + 1), isReserved a = false) →
    exec (.storeRegs x) s = .next t →
    exec (.loadRegs x) { t with index := s.index, v := junk } = .next u →
    (∀ r : RegId, r ≤ x → u.reg r = s.reg r) ∧ u.index = t.index

/-- R88, for the one word F155: after it the word fetched at I is V0 ++ V1. Every other store is in
`Obligations.EveryStoredByteIsFetchedAtOnce`. -/
def Obligations.StoredWordIsFetchedAtOnce : Prop :=
  ∀ s t : State, (∀ a ∈ storeAddrs s 2, isReserved a = false) → exec (.storeRegs 1) s = .next t →
    ({ t with pc := s.index }).fetchWord.toNat = (s.reg 0).toNat * 256 + (s.reg 1).toNat

/-! ## The keypad -/

/-- R236, R237: LD Vx, K, FX0A: one scan of the latches from 0 up, each read in its turn. With no latch true nothing changes,
pc included; else the lowest latch that reads true goes into Vx and pc advances. -/
def Obligations.KeyWaitTakesTheLowestLatchOrStays : Prop :=
  ∀ x : RegId, decodeWord (wordX 0xF00A x) = .insn (.ldVxK x) ∧
    ∀ s : State,
      ((∀ k : KeyId, s.latch k.val k = false) → exec (.ldVxK x) s = .next s) ∧
      (∀ k : KeyId, s.latch k.val k = true → (∀ j : KeyId, j < k → s.latch j.val j = false) →
        ∃ t, exec (.ldVxK x) s = .next t ∧ (t.reg x).toNat = k.val ∧ RegsKept [x] s t ∧ NextPc 2 s t ∧
          OnlyChanges [.regs, .pc] s t)

/-- R240, R241: SKP Vx (EX9E) and SKNP Vx (EXA1): one read of the latch named by the low nibble of Vx. -/
def Obligations.SkipIfKeyReadsTheNamedLatch : Prop :=
  ∀ x : RegId, decodeWord (wordX 0xE09E x) = .insn (.skp x) ∧ decodeWord (wordX 0xE0A1 x) = .insn (.sknp x) ∧
    ∀ (s : State) (k : KeyId), k.val = (s.reg x).toNat % 16 →
      (∃ t, exec (.skp x) s = .next t ∧ NextPc (if s.latch 0 k = true then 4 else 2) s t ∧
        OnlyChanges [.pc] s t) ∧
      (∃ t, exec (.sknp x) s = .next t ∧ NextPc (if s.latch 0 k = true then 2 else 4) s t ∧
        OnlyChanges [.pc] s t)

/-- R85: the value a step reads in latch k is one that the latch holds at some instant during the step: after some number of the
key events that fall during it, in their order. With none the read is of the latch as it stands. The events are data of the
model's agenda, log 4 and log 5. -/
def Obligations.LatchReadIsAValueHeldDuringTheStep : Prop :=
  ∀ (s : State) (nth : Nat) (k : KeyId),
    (∃ m, m ≤ s.arrivals.flatten.length ∧
      s.latch nth k = (landKeys s.key (s.arrivals.flatten.take m))[k.val]) ∧
    (s.arrivals = [] → s.latch nth k = s.key[k.val])

/-- R62: set_key sets the latch of an index 0 to 15 and nothing else; any other index is ignored. -/
def Obligations.SetKeySetsOneLatch : Prop :=
  ∀ (s : State) (e : KeyEvent),
    (∀ k : KeyId, e.index = (k.val : Int) →
      (s.setKey e).key[k.val] = e.pressed ∧ (∀ j : KeyId, j ≠ k → (s.setKey e).key[j.val] = s.key[j.val]) ∧
      OnlyChanges [.key] s (s.setKey e)) ∧
    (e.index < 0 ∨ 15 < e.index → s.setKey e = s)

/-! ## The timer unit, the loader, runs -/

/-- R280: a tick takes one from each timer that is above 0, in one event, and changes nothing else. -/
def Obligations.TickCountsBothTimersDown : Prop :=
  ∀ s : State, s.tick.dt.toNat = s.dt.toNat - 1 ∧ s.tick.st.toNat = s.st.toNat - 1 ∧
    OnlyChanges [.dt, .st] s s.tick

/-- R280, n times: n ticks take n from each timer, down to 0 and never below. -/
def Obligations.TicksNeverPassZero : Prop :=
  ∀ (n : Nat) (s : State),
    (s.hostEvents (List.replicate n .tick)).dt.toNat = s.dt.toNat - n ∧
    (s.hostEvents (List.replicate n .tick)).st.toNat = s.st.toNat - n

/-- R305: a load of at most 3584 bytes copies them from 0x200 upward and changes nothing else; a longer one is rejected and, as
an event, leaves the state as it was. -/
def Obligations.LoadCopiesOrRejects : Prop :=
  ∀ (bytes : List Byte) (s : State),
    (bytes.length ≤ 3584 → ∃ t, s.load bytes = some t ∧ s.hostEvent (.load bytes) = t ∧
      (∀ i (h : i < bytes.length), t.read (BitVec.ofNat 12 (0x200 + i)) = bytes[i]) ∧
      (∀ a : Addr, a.toNat < 0x200 ∨ 0x200 + bytes.length ≤ a.toNat → t.read a = s.read a) ∧
      OnlyChanges [.mem] s t) ∧
    (3584 < bytes.length → s.load bytes = none ∧ s.hostEvent (.load bytes) = s)

/-- R316: at an idle point the cycle changes nothing at all. -/
def Obligations.IdlePointChangesNothing : Prop := ∀ s, AtIdlePoint s → cycle s = .next s

/-- R281, R280, R316: in a run at an idle point, under every schedule in which ticks never cease and no program is loaded,
whatever the keys do, both timers reach 0, and stay there. Fairness is a premise on the schedule, log 18. -/
def Obligations.FairTicksSilenceTheTimers : Prop :=
  ∀ (sch : Schedule) (s : State), FairSchedule sch → NoLoads sch → AtIdlePoint s →
    ∃ n, ∀ m, n ≤ m → (runSchedule sch s m).dt = 0 ∧ (runSchedule sch s m).st = 0

/-! ## Every store and the next fetch -/

/-- R88 for every store: each byte that FX55 or FX33 writes is seen by the very next fetch that reaches its address, as the high
byte of the word at that address and as the low byte of the word one below it. -/
def Obligations.EveryStoredByteIsFetchedAtOnce : Prop :=
  ∀ (x : RegId) (s t : State) (p : Word),
    (exec (.storeRegs x) s = .next t → ∀ r : RegId, r ≤ x → isReserved (offsetAddr s.index r.val) = false →
      (p.toNat % 4096 = (s.index.toNat + r.val) % 4096 →
        ({ t with pc := p }).fetchWord.toNat / 256 = (s.reg r).toNat) ∧
      ((p.toNat + 1) % 4096 = (s.index.toNat + r.val) % 4096 →
        ({ t with pc := p }).fetchWord.toNat % 256 = (s.reg r).toNat)) ∧
    (exec (.ldB x) s = .next t → ∀ k d : Nat,
      (k = 0 ∧ d = (s.reg x).toNat / 100) ∨ (k = 1 ∧ d = (s.reg x).toNat / 10 % 10) ∨
        (k = 2 ∧ d = (s.reg x).toNat % 10) →
      isReserved (offsetAddr s.index k) = false →
      (p.toNat % 4096 = (s.index.toNat + k) % 4096 → ({ t with pc := p }).fetchWord.toNat / 256 = d) ∧
      ((p.toNat + 1) % 4096 = (s.index.toNat + k) % 4096 → ({ t with pc := p }).fetchWord.toNat % 256 = d))
end

