-- ==== Sys2Proof/Laws/Encoding.lean ====
section
/-! SUPPORT. Words and their fields: the value of each packed form, and each field read back from it. -/

namespace Sys2Proof

theorem regBits_toNat (x : RegId) : (regBits x).toNat = x.val := by
  have := x.isLt
  simp only [regBits, BitVec.toNat_ofNat]
  omega

/-- The value of `hi ++ lo`. -/
theorem append_toNat {m n : Nat} (a : BitVec m) (b : BitVec n) : (a ++ b).toNat = a.toNat * 2 ^ n + b.toNat := by
  rw [BitVec.toNat_append, ← Nat.shiftLeft_add_eq_or_of_lt b.isLt, Nat.shiftLeft_eq]

theorem beWord_toNat (hi lo : Byte) : (beWord hi lo).toNat = hi.toNat * 256 + lo.toNat := append_toNat hi lo

/-! ## The value of a packed word -/

theorem packRR_toNat (f : BitVec 4) (x y : RegId) (s : BitVec 4) :
    (packRR f x y s).toNat = f.toNat * 4096 + x.val * 256 + y.val * 16 + s.toNat := by
  show (((f ++ regBits x) ++ regBits y) ++ s).toNat = _
  simp only [append_toNat, regBits_toNat]
  omega

theorem packRI_toNat (f : BitVec 4) (x : RegId) (nn : Byte) :
    (packRI f x nn).toNat = f.toNat * 4096 + x.val * 256 + nn.toNat := by
  show ((f ++ regBits x) ++ nn).toNat = _
  simp only [append_toNat, regBits_toNat]
  omega

theorem packA_toNat (f : BitVec 4) (nnn : Addr) : (packA f nnn).toNat = f.toNat * 4096 + nnn.toNat := by
  show (f ++ nnn).toNat = _
  rw [append_toNat]
  omega

/-! ## The value of a field -/

theorem fieldF_toNat (w : Word) : (fieldF w).toNat = w.toNat / 4096 := by
  have := w.isLt
  simp only [fieldF, BitVec.extractLsb'_toNat, Nat.shiftRight_eq_div_pow]
  omega

theorem fieldX_val (w : Word) : (fieldX w).val = w.toNat / 256 % 16 := by
  show (w.extractLsb' 8 4).toNat = _
  simp only [BitVec.extractLsb'_toNat, Nat.shiftRight_eq_div_pow]

theorem fieldY_val (w : Word) : (fieldY w).val = w.toNat / 16 % 16 := by
  show (w.extractLsb' 4 4).toNat = _
  simp only [BitVec.extractLsb'_toNat, Nat.shiftRight_eq_div_pow]

theorem fieldN_toNat (w : Word) : (fieldN w).toNat = w.toNat % 16 := by
  simp only [fieldN, BitVec.extractLsb'_toNat, Nat.shiftRight_eq_div_pow]
  omega

theorem fieldNN_toNat (w : Word) : (fieldNN w).toNat = w.toNat % 256 := by
  simp only [fieldNN, BitVec.extractLsb'_toNat, Nat.shiftRight_eq_div_pow]
  omega

theorem fieldNNN_toNat (w : Word) : (fieldNNN w).toNat = w.toNat % 4096 := by
  simp only [fieldNNN, BitVec.extractLsb'_toNat, Nat.shiftRight_eq_div_pow]
  omega

/-! ## Fields of a packed word -/

section
variable (f : BitVec 4) (x y : RegId) (s : BitVec 4) (nn : Byte) (nnn : Addr)

@[simp] theorem fieldF_packRR : fieldF (packRR f x y s) = f := by
  apply BitVec.eq_of_toNat_eq
  have := x.isLt; have := y.isLt; have := s.isLt
  rw [fieldF_toNat, packRR_toNat]; omega

@[simp] theorem fieldX_packRR : fieldX (packRR f x y s) = x := by
  apply Fin.ext
  have := x.isLt; have := y.isLt; have := s.isLt
  rw [fieldX_val, packRR_toNat]; omega

@[simp] theorem fieldY_packRR : fieldY (packRR f x y s) = y := by
  apply Fin.ext
  have := x.isLt; have := y.isLt; have := s.isLt
  rw [fieldY_val, packRR_toNat]; omega

@[simp] theorem fieldN_packRR : fieldN (packRR f x y s) = s := by
  apply BitVec.eq_of_toNat_eq
  have := s.isLt
  rw [fieldN_toNat, packRR_toNat]; omega

@[simp] theorem fieldF_packRI : fieldF (packRI f x nn) = f := by
  apply BitVec.eq_of_toNat_eq
  have := x.isLt; have := nn.isLt
  rw [fieldF_toNat, packRI_toNat]; omega

@[simp] theorem fieldX_packRI : fieldX (packRI f x nn) = x := by
  apply Fin.ext
  have := x.isLt; have := nn.isLt
  rw [fieldX_val, packRI_toNat]; omega

@[simp] theorem fieldNN_packRI : fieldNN (packRI f x nn) = nn := by
  apply BitVec.eq_of_toNat_eq
  have := nn.isLt
  rw [fieldNN_toNat, packRI_toNat]; omega

@[simp] theorem fieldF_packA : fieldF (packA f nnn) = f := by
  apply BitVec.eq_of_toNat_eq
  have := nnn.isLt
  rw [fieldF_toNat, packA_toNat]; omega

@[simp] theorem fieldNNN_packA : fieldNNN (packA f nnn) = nnn := by
  apply BitVec.eq_of_toNat_eq
  have := nnn.isLt
  rw [fieldNNN_toNat, packA_toNat]; omega

end

/-! ## A word is packed from its fields -/

theorem packRR_fields (w : Word) : packRR (fieldF w) (fieldX w) (fieldY w) (fieldN w) = w := by
  apply BitVec.eq_of_toNat_eq
  have := w.isLt
  rw [packRR_toNat, fieldF_toNat, fieldX_val, fieldY_val, fieldN_toNat]; omega

theorem packRI_fields (w : Word) : packRI (fieldF w) (fieldX w) (fieldNN w) = w := by
  apply BitVec.eq_of_toNat_eq
  have := w.isLt
  rw [packRI_toNat, fieldF_toNat, fieldX_val, fieldNN_toNat]; omega

theorem packA_fields (w : Word) : packA (fieldF w) (fieldNNN w) = w := by
  apply BitVec.eq_of_toNat_eq
  have := w.isLt
  rw [packA_toNat, fieldF_toNat, fieldNNN_toNat]; omega

/-! ## Words by their hexadecimal pattern -/

namespace Machine

theorem wordNNN_eq (f : BitVec 4) (base : Nat) (h : base = f.toNat * 4096) (nnn : Addr) :
    wordNNN base nnn = packA f nnn := by
  apply BitVec.eq_of_toNat_eq
  have := nnn.isLt; have := f.isLt
  rw [packA_toNat]; simp only [wordNNN, BitVec.toNat_ofNat]; omega

theorem wordXNN_eq (f : BitVec 4) (base : Nat) (h : base = f.toNat * 4096) (x : RegId) (nn : Byte) :
    wordXNN base x nn = packRI f x nn := by
  apply BitVec.eq_of_toNat_eq
  have := x.isLt; have := nn.isLt; have := f.isLt
  rw [packRI_toNat]; simp only [wordXNN, BitVec.toNat_ofNat]; omega

theorem wordX_eq (f : BitVec 4) (nn : Byte) (base : Nat) (h : base = f.toNat * 4096 + nn.toNat) (x : RegId) :
    wordX base x = packRI f x nn := by
  apply BitVec.eq_of_toNat_eq
  have := x.isLt; have := nn.isLt; have := f.isLt
  rw [packRI_toNat]; simp only [wordX, BitVec.toNat_ofNat]; omega

theorem wordXY_eq (f n : BitVec 4) (base : Nat) (h : base = f.toNat * 4096 + n.toNat) (x y : RegId) :
    wordXY base x y = packRR f x y n := by
  apply BitVec.eq_of_toNat_eq
  have := x.isLt; have := y.isLt; have := n.isLt; have := f.isLt
  rw [packRR_toNat]; simp only [wordXY, BitVec.toNat_ofNat]; omega

theorem wordXYN_eq (f : BitVec 4) (base : Nat) (h : base = f.toNat * 4096) (x y : RegId) (n : Nat) (hn : n < 16) :
    wordXYN base x y n = packRR f x y (BitVec.ofNat 4 n) := by
  apply BitVec.eq_of_toNat_eq
  have := x.isLt; have := y.isLt; have := f.isLt
  rw [packRR_toNat]; simp only [wordXYN, BitVec.toNat_ofNat]; omega

end Machine

/-! ## Decoding a packed word, family by family -/

theorem decodeWord_packA (f : BitVec 4) (nnn : Addr) (i : Instr)
    (h : (f = 1 ∧ i = .jp nnn) ∨ (f = 2 ∧ i = .call nnn) ∨ (f = 0xA ∧ i = .ldI nnn) ∨ (f = 0xB ∧ i = .jpV0 nnn)) :
    decodeWord (packA f nnn) = .insn i := by
  rcases h with ⟨rfl, rfl⟩ | ⟨rfl, rfl⟩ | ⟨rfl, rfl⟩ | ⟨rfl, rfl⟩ <;> simp [decodeWord]

theorem decodeWord_packRI (f : BitVec 4) (x : RegId) (nn : Byte) (i : Instr)
    (h : (f = 3 ∧ i = .seImm x nn) ∨ (f = 4 ∧ i = .sneImm x nn) ∨ (f = 6 ∧ i = .ldImm x nn) ∨
      (f = 7 ∧ i = .addImm x nn) ∨ (f = 0xC ∧ i = .rnd x nn)) :
    decodeWord (packRI f x nn) = .insn i := by
  rcases h with ⟨rfl, rfl⟩ | ⟨rfl, rfl⟩ | ⟨rfl, rfl⟩ | ⟨rfl, rfl⟩ | ⟨rfl, rfl⟩ <;> simp [decodeWord]

/-- What a word of family 8 decodes to. -/
theorem decodeWord_family8 (x y : RegId) (n : BitVec 4) :
    decodeWord (packRR 8 x y n) = decodeFamily8 (packRR 8 x y n) := by simp [decodeWord]

/-- What a word of family E decodes to. -/
theorem decodeWord_familyE (x : RegId) (nn : Byte) :
    decodeWord (packRI 0xE x nn) = decodeFamilyE (packRI 0xE x nn) := by simp [decodeWord]

/-- What a word of family F decodes to. -/
theorem decodeWord_familyF (x : RegId) (nn : Byte) :
    decodeWord (packRI 0xF x nn) = decodeFamilyF (packRI 0xF x nn) := by simp [decodeWord]

end Sys2Proof
end

