-- ==== Sys2Proof/Laws/State.lean ====
section
/-! SUPPORT. The fields after each update of the state: one lemma per field per update, true by rfl. -/

namespace Sys2Proof.Machine.State

variable (s : State)

@[simp] theorem setReg_v (r : RegId) (b : Byte) : (setReg r b s).v = s.v.set r.val b := rfl
@[simp] theorem setReg_pc (r : RegId) (b : Byte) : (setReg r b s).pc = s.pc := rfl
@[simp] theorem setReg_index (r : RegId) (b : Byte) : (setReg r b s).index = s.index := rfl
@[simp] theorem setReg_mem (r : RegId) (b : Byte) : (setReg r b s).mem = s.mem := rfl
@[simp] theorem setReg_stack (r : RegId) (b : Byte) : (setReg r b s).stack = s.stack := rfl
@[simp] theorem setReg_sp (r : RegId) (b : Byte) : (setReg r b s).sp = s.sp := rfl
@[simp] theorem setReg_dt (r : RegId) (b : Byte) : (setReg r b s).dt = s.dt := rfl
@[simp] theorem setReg_st (r : RegId) (b : Byte) : (setReg r b s).st = s.st := rfl
@[simp] theorem setReg_key (r : RegId) (b : Byte) : (setReg r b s).key = s.key := rfl
@[simp] theorem setReg_fb (r : RegId) (b : Byte) : (setReg r b s).fb = s.fb := rfl
@[simp] theorem setReg_faults (r : RegId) (b : Byte) : (setReg r b s).faults = s.faults := rfl
@[simp] theorem setReg_agenda (r : RegId) (b : Byte) : (setReg r b s).agenda = s.agenda := rfl
@[simp] theorem setReg_draws (r : RegId) (b : Byte) : (setReg r b s).draws = s.draws := rfl

@[simp] theorem setPc_v (t : Word) : (setPc t s).v = s.v := rfl
@[simp] theorem setPc_pc (t : Word) : (setPc t s).pc = mask12 t := rfl
@[simp] theorem setPc_index (t : Word) : (setPc t s).index = s.index := rfl
@[simp] theorem setPc_mem (t : Word) : (setPc t s).mem = s.mem := rfl
@[simp] theorem setPc_stack (t : Word) : (setPc t s).stack = s.stack := rfl
@[simp] theorem setPc_sp (t : Word) : (setPc t s).sp = s.sp := rfl
@[simp] theorem setPc_dt (t : Word) : (setPc t s).dt = s.dt := rfl
@[simp] theorem setPc_st (t : Word) : (setPc t s).st = s.st := rfl
@[simp] theorem setPc_key (t : Word) : (setPc t s).key = s.key := rfl
@[simp] theorem setPc_fb (t : Word) : (setPc t s).fb = s.fb := rfl
@[simp] theorem setPc_faults (t : Word) : (setPc t s).faults = s.faults := rfl
@[simp] theorem setPc_agenda (t : Word) : (setPc t s).agenda = s.agenda := rfl
@[simp] theorem setPc_draws (t : Word) : (setPc t s).draws = s.draws := rfl

@[simp] theorem setIndex_v (t : Word) : (setIndex t s).v = s.v := rfl
@[simp] theorem setIndex_pc (t : Word) : (setIndex t s).pc = s.pc := rfl
@[simp] theorem setIndex_index (t : Word) : (setIndex t s).index = t := rfl
@[simp] theorem setIndex_mem (t : Word) : (setIndex t s).mem = s.mem := rfl
@[simp] theorem setIndex_stack (t : Word) : (setIndex t s).stack = s.stack := rfl
@[simp] theorem setIndex_sp (t : Word) : (setIndex t s).sp = s.sp := rfl
@[simp] theorem setIndex_dt (t : Word) : (setIndex t s).dt = s.dt := rfl
@[simp] theorem setIndex_st (t : Word) : (setIndex t s).st = s.st := rfl
@[simp] theorem setIndex_key (t : Word) : (setIndex t s).key = s.key := rfl
@[simp] theorem setIndex_fb (t : Word) : (setIndex t s).fb = s.fb := rfl
@[simp] theorem setIndex_faults (t : Word) : (setIndex t s).faults = s.faults := rfl
@[simp] theorem setIndex_agenda (t : Word) : (setIndex t s).agenda = s.agenda := rfl
@[simp] theorem setIndex_draws (t : Word) : (setIndex t s).draws = s.draws := rfl

@[simp] theorem setDt_v (b : Byte) : (setDt b s).v = s.v := rfl
@[simp] theorem setDt_pc (b : Byte) : (setDt b s).pc = s.pc := rfl
@[simp] theorem setDt_index (b : Byte) : (setDt b s).index = s.index := rfl
@[simp] theorem setDt_mem (b : Byte) : (setDt b s).mem = s.mem := rfl
@[simp] theorem setDt_stack (b : Byte) : (setDt b s).stack = s.stack := rfl
@[simp] theorem setDt_sp (b : Byte) : (setDt b s).sp = s.sp := rfl
@[simp] theorem setDt_dt (b : Byte) : (setDt b s).dt = b := rfl
@[simp] theorem setDt_st (b : Byte) : (setDt b s).st = s.st := rfl
@[simp] theorem setDt_key (b : Byte) : (setDt b s).key = s.key := rfl
@[simp] theorem setDt_fb (b : Byte) : (setDt b s).fb = s.fb := rfl
@[simp] theorem setDt_faults (b : Byte) : (setDt b s).faults = s.faults := rfl
@[simp] theorem setDt_agenda (b : Byte) : (setDt b s).agenda = s.agenda := rfl
@[simp] theorem setDt_draws (b : Byte) : (setDt b s).draws = s.draws := rfl

@[simp] theorem setSt_v (b : Byte) : (setSt b s).v = s.v := rfl
@[simp] theorem setSt_pc (b : Byte) : (setSt b s).pc = s.pc := rfl
@[simp] theorem setSt_index (b : Byte) : (setSt b s).index = s.index := rfl
@[simp] theorem setSt_mem (b : Byte) : (setSt b s).mem = s.mem := rfl
@[simp] theorem setSt_stack (b : Byte) : (setSt b s).stack = s.stack := rfl
@[simp] theorem setSt_sp (b : Byte) : (setSt b s).sp = s.sp := rfl
@[simp] theorem setSt_dt (b : Byte) : (setSt b s).dt = s.dt := rfl
@[simp] theorem setSt_st (b : Byte) : (setSt b s).st = b := rfl
@[simp] theorem setSt_key (b : Byte) : (setSt b s).key = s.key := rfl
@[simp] theorem setSt_fb (b : Byte) : (setSt b s).fb = s.fb := rfl
@[simp] theorem setSt_faults (b : Byte) : (setSt b s).faults = s.faults := rfl
@[simp] theorem setSt_agenda (b : Byte) : (setSt b s).agenda = s.agenda := rfl
@[simp] theorem setSt_draws (b : Byte) : (setSt b s).draws = s.draws := rfl

@[simp] theorem setByte_v (a : Addr) (b : Byte) : (setByte a b s).v = s.v := rfl
@[simp] theorem setByte_pc (a : Addr) (b : Byte) : (setByte a b s).pc = s.pc := rfl
@[simp] theorem setByte_index (a : Addr) (b : Byte) : (setByte a b s).index = s.index := rfl
@[simp] theorem setByte_mem (a : Addr) (b : Byte) : (setByte a b s).mem = s.mem.write a.toNat b := rfl
@[simp] theorem setByte_stack (a : Addr) (b : Byte) : (setByte a b s).stack = s.stack := rfl
@[simp] theorem setByte_sp (a : Addr) (b : Byte) : (setByte a b s).sp = s.sp := rfl
@[simp] theorem setByte_dt (a : Addr) (b : Byte) : (setByte a b s).dt = s.dt := rfl
@[simp] theorem setByte_st (a : Addr) (b : Byte) : (setByte a b s).st = s.st := rfl
@[simp] theorem setByte_key (a : Addr) (b : Byte) : (setByte a b s).key = s.key := rfl
@[simp] theorem setByte_fb (a : Addr) (b : Byte) : (setByte a b s).fb = s.fb := rfl
@[simp] theorem setByte_faults (a : Addr) (b : Byte) : (setByte a b s).faults = s.faults := rfl
@[simp] theorem setByte_agenda (a : Addr) (b : Byte) : (setByte a b s).agenda = s.agenda := rfl
@[simp] theorem setByte_draws (a : Addr) (b : Byte) : (setByte a b s).draws = s.draws := rfl

@[simp] theorem raise_v (c : FaultCause) (p w : Word) : (raise c p w s).v = s.v := rfl
@[simp] theorem raise_pc (c : FaultCause) (p w : Word) : (raise c p w s).pc = s.pc := rfl
@[simp] theorem raise_index (c : FaultCause) (p w : Word) : (raise c p w s).index = s.index := rfl
@[simp] theorem raise_mem (c : FaultCause) (p w : Word) : (raise c p w s).mem = s.mem := rfl
@[simp] theorem raise_stack (c : FaultCause) (p w : Word) : (raise c p w s).stack = s.stack := rfl
@[simp] theorem raise_sp (c : FaultCause) (p w : Word) : (raise c p w s).sp = s.sp := rfl
@[simp] theorem raise_dt (c : FaultCause) (p w : Word) : (raise c p w s).dt = s.dt := rfl
@[simp] theorem raise_st (c : FaultCause) (p w : Word) : (raise c p w s).st = s.st := rfl
@[simp] theorem raise_key (c : FaultCause) (p w : Word) : (raise c p w s).key = s.key := rfl
@[simp] theorem raise_fb (c : FaultCause) (p w : Word) : (raise c p w s).fb = s.fb := rfl
@[simp] theorem raise_faults (c : FaultCause) (p w : Word) : (raise c p w s).faults = s.faults ++ [⟨c, p, w⟩] := rfl
@[simp] theorem raise_agenda (c : FaultCause) (p w : Word) : (raise c p w s).agenda = s.agenda := rfl
@[simp] theorem raise_draws (c : FaultCause) (p w : Word) : (raise c p w s).draws = s.draws := rfl

@[simp] theorem setFlag_v (c : Bool) : (setFlag c s).v = s.v.set VF.val (flagByte c) := rfl
@[simp] theorem setFlag_pc (c : Bool) : (setFlag c s).pc = s.pc := rfl
@[simp] theorem setFlag_index (c : Bool) : (setFlag c s).index = s.index := rfl
@[simp] theorem setFlag_mem (c : Bool) : (setFlag c s).mem = s.mem := rfl
@[simp] theorem setFlag_stack (c : Bool) : (setFlag c s).stack = s.stack := rfl
@[simp] theorem setFlag_sp (c : Bool) : (setFlag c s).sp = s.sp := rfl
@[simp] theorem setFlag_dt (c : Bool) : (setFlag c s).dt = s.dt := rfl
@[simp] theorem setFlag_st (c : Bool) : (setFlag c s).st = s.st := rfl
@[simp] theorem setFlag_key (c : Bool) : (setFlag c s).key = s.key := rfl
@[simp] theorem setFlag_fb (c : Bool) : (setFlag c s).fb = s.fb := rfl
@[simp] theorem setFlag_faults (c : Bool) : (setFlag c s).faults = s.faults := rfl
@[simp] theorem setFlag_agenda (c : Bool) : (setFlag c s).agenda = s.agenda := rfl
@[simp] theorem setFlag_draws (c : Bool) : (setFlag c s).draws = s.draws := rfl

@[simp] theorem advance_v : (advance s).v = s.v := rfl
@[simp] theorem advance_pc : (advance s).pc = mask12 (s.pc + 2) := rfl
@[simp] theorem advance_index : (advance s).index = s.index := rfl
@[simp] theorem advance_mem : (advance s).mem = s.mem := rfl
@[simp] theorem advance_stack : (advance s).stack = s.stack := rfl
@[simp] theorem advance_sp : (advance s).sp = s.sp := rfl
@[simp] theorem advance_dt : (advance s).dt = s.dt := rfl
@[simp] theorem advance_st : (advance s).st = s.st := rfl
@[simp] theorem advance_key : (advance s).key = s.key := rfl
@[simp] theorem advance_fb : (advance s).fb = s.fb := rfl
@[simp] theorem advance_faults : (advance s).faults = s.faults := rfl
@[simp] theorem advance_agenda : (advance s).agenda = s.agenda := rfl
@[simp] theorem advance_draws : (advance s).draws = s.draws := rfl

@[simp] theorem tick_v : (tick s).v = s.v := rfl
@[simp] theorem tick_pc : (tick s).pc = s.pc := rfl
@[simp] theorem tick_index : (tick s).index = s.index := rfl
@[simp] theorem tick_mem : (tick s).mem = s.mem := rfl
@[simp] theorem tick_stack : (tick s).stack = s.stack := rfl
@[simp] theorem tick_sp : (tick s).sp = s.sp := rfl
@[simp] theorem tick_dt : (tick s).dt = countDown s.dt := rfl
@[simp] theorem tick_st : (tick s).st = countDown s.st := rfl
@[simp] theorem tick_key : (tick s).key = s.key := rfl
@[simp] theorem tick_fb : (tick s).fb = s.fb := rfl
@[simp] theorem tick_faults : (tick s).faults = s.faults := rfl
@[simp] theorem tick_agenda : (tick s).agenda = s.agenda := rfl
@[simp] theorem tick_draws : (tick s).draws = s.draws := rfl

@[simp] theorem setKey_v (e : KeyEvent) : (setKey e s).v = s.v := rfl
@[simp] theorem setKey_pc (e : KeyEvent) : (setKey e s).pc = s.pc := rfl
@[simp] theorem setKey_index (e : KeyEvent) : (setKey e s).index = s.index := rfl
@[simp] theorem setKey_mem (e : KeyEvent) : (setKey e s).mem = s.mem := rfl
@[simp] theorem setKey_stack (e : KeyEvent) : (setKey e s).stack = s.stack := rfl
@[simp] theorem setKey_sp (e : KeyEvent) : (setKey e s).sp = s.sp := rfl
@[simp] theorem setKey_dt (e : KeyEvent) : (setKey e s).dt = s.dt := rfl
@[simp] theorem setKey_st (e : KeyEvent) : (setKey e s).st = s.st := rfl
@[simp] theorem setKey_key (e : KeyEvent) : (setKey e s).key = landKey s.key e := rfl
@[simp] theorem setKey_fb (e : KeyEvent) : (setKey e s).fb = s.fb := rfl
@[simp] theorem setKey_faults (e : KeyEvent) : (setKey e s).faults = s.faults := rfl
@[simp] theorem setKey_agenda (e : KeyEvent) : (setKey e s).agenda = s.agenda := rfl
@[simp] theorem setKey_draws (e : KeyEvent) : (setKey e s).draws = s.draws := rfl

/-! ## Reading through an update -/

@[simp] theorem read_setReg (r : RegId) (b : Byte) (q : Addr) : (setReg r b s).read q = s.read q := rfl
@[simp] theorem pixel_setReg (r : RegId) (b : Byte) (q : RowId) (col : ColId) : (setReg r b s).pixel q col = s.pixel q col := rfl
@[simp] theorem reg_setPc (t : Word) (q : RegId) : (setPc t s).reg q = s.reg q := rfl
@[simp] theorem read_setPc (t : Word) (q : Addr) : (setPc t s).read q = s.read q := rfl
@[simp] theorem pixel_setPc (t : Word) (q : RowId) (col : ColId) : (setPc t s).pixel q col = s.pixel q col := rfl
@[simp] theorem reg_setIndex (t : Word) (q : RegId) : (setIndex t s).reg q = s.reg q := rfl
@[simp] theorem read_setIndex (t : Word) (q : Addr) : (setIndex t s).read q = s.read q := rfl
@[simp] theorem pixel_setIndex (t : Word) (q : RowId) (col : ColId) : (setIndex t s).pixel q col = s.pixel q col := rfl
@[simp] theorem reg_setDt (b : Byte) (q : RegId) : (setDt b s).reg q = s.reg q := rfl
@[simp] theorem read_setDt (b : Byte) (q : Addr) : (setDt b s).read q = s.read q := rfl
@[simp] theorem pixel_setDt (b : Byte) (q : RowId) (col : ColId) : (setDt b s).pixel q col = s.pixel q col := rfl
@[simp] theorem reg_setSt (b : Byte) (q : RegId) : (setSt b s).reg q = s.reg q := rfl
@[simp] theorem read_setSt (b : Byte) (q : Addr) : (setSt b s).read q = s.read q := rfl
@[simp] theorem pixel_setSt (b : Byte) (q : RowId) (col : ColId) : (setSt b s).pixel q col = s.pixel q col := rfl
@[simp] theorem reg_setByte (a : Addr) (b : Byte) (q : RegId) : (setByte a b s).reg q = s.reg q := rfl
@[simp] theorem pixel_setByte (a : Addr) (b : Byte) (q : RowId) (col : ColId) : (setByte a b s).pixel q col = s.pixel q col := rfl
@[simp] theorem reg_raise (c : FaultCause) (p w : Word) (q : RegId) : (raise c p w s).reg q = s.reg q := rfl
@[simp] theorem read_raise (c : FaultCause) (p w : Word) (q : Addr) : (raise c p w s).read q = s.read q := rfl
@[simp] theorem pixel_raise (c : FaultCause) (p w : Word) (q : RowId) (col : ColId) : (raise c p w s).pixel q col = s.pixel q col := rfl
@[simp] theorem read_setFlag (c : Bool) (q : Addr) : (setFlag c s).read q = s.read q := rfl
@[simp] theorem pixel_setFlag (c : Bool) (q : RowId) (col : ColId) : (setFlag c s).pixel q col = s.pixel q col := rfl
@[simp] theorem reg_advance (q : RegId) : (advance s).reg q = s.reg q := rfl
@[simp] theorem read_advance (q : Addr) : (advance s).read q = s.read q := rfl
@[simp] theorem pixel_advance (q : RowId) (col : ColId) : (advance s).pixel q col = s.pixel q col := rfl
@[simp] theorem reg_tick (q : RegId) : (tick s).reg q = s.reg q := rfl
@[simp] theorem read_tick (q : Addr) : (tick s).read q = s.read q := rfl
@[simp] theorem pixel_tick (q : RowId) (col : ColId) : (tick s).pixel q col = s.pixel q col := rfl
@[simp] theorem reg_setKey (e : KeyEvent) (q : RegId) : (setKey e s).reg q = s.reg q := rfl
@[simp] theorem read_setKey (e : KeyEvent) (q : Addr) : (setKey e s).read q = s.read q := rfl
@[simp] theorem pixel_setKey (e : KeyEvent) (q : RowId) (col : ColId) : (setKey e s).pixel q col = s.pixel q col := rfl

/-! ## Reading back -/

@[simp] theorem reg_setReg_same (r : RegId) (b : Byte) : (setReg r b s).reg r = b := by
  simp [reg]

theorem reg_setReg_other {r q : RegId} (b : Byte) (h : q ≠ r) : (setReg r b s).reg q = s.reg q := by
  have : r.val ≠ q.val := fun e => h (Fin.ext e.symm)
  simp [reg, Vector.getElem_set_ne, this]

theorem reg_setReg (r q : RegId) (b : Byte) : (setReg r b s).reg q = if q = r then b else s.reg q := by
  by_cases h : q = r
  · subst h; simp
  · simp [h, reg_setReg_other]

/-- The registers depend only on the field that holds them. -/
theorem reg_congr {s t : State} (h : t.v = s.v) (r : RegId) : t.reg r = s.reg r := by simp [reg, h]

theorem read_congr {s t : State} (h : t.mem = s.mem) (a : Addr) : t.read a = s.read a := by simp [read, h]

theorem pixel_congr {s t : State} (h : t.fb = s.fb) (q : RowId) (c : ColId) : t.pixel q c = s.pixel q c := by
  simp [pixel, h]

theorem setFlag_eq (c : Bool) : s.setFlag c = s.setReg VF (flagByte c) := rfl

/-- What a skip can do: only `pc`, by 4 or by 2 (R130). -/
theorem skipIf_eq (c : Bool) : s.skipIf c = s.setPc (s.pc + if c then 4 else 2) := by
  cases c <;> rfl

/-! ## The program counter (R33) -/

theorem mask12_toNat (t : Word) : (mask12 t).toNat = t.toNat % 4096 := by
  simp only [mask12, BitVec.toNat_and, BitVec.toNat_ofNat]
  exact Nat.and_two_pow_sub_one_eq_mod t.toNat 12

theorem setPc_pc_toNat (t : Word) : (setPc t s).pc.toNat = t.toNat % 4096 := by simp [mask12_toNat]

theorem advance_pc_toNat : s.advance.pc.toNat = (s.pc.toNat + 2) % 4096 := by
  have h2 : (2 : Word).toNat = 2 := rfl
  simp only [advance_pc, mask12_toNat, BitVec.toNat_add, h2]
  omega

theorem skipIf_pc_toNat (c : Bool) : (s.skipIf c).pc.toNat = (s.pc.toNat + if c then 4 else 2) % 4096 := by
  rw [skipIf_eq, setPc_pc_toNat, BitVec.toNat_add]
  cases c <;> simp

theorem mask12_lt (t : Word) : (mask12 t).toNat < 4096 := by
  rw [mask12_toNat]; exact Nat.mod_lt _ (by decide)

theorem toAddr_toNat (a : Word) : (toAddr a).toNat = a.toNat % 4096 := by
  simp [toAddr, BitVec.toNat_setWidth]

theorem offsetAddr_toNat (base : Word) (k : Nat) : (offsetAddr base k).toNat = (base.toNat + k) % 4096 := by
  simp only [offsetAddr, toAddr_toNat, BitVec.toNat_add, BitVec.toNat_ofNat]
  omega

/-- Two offsets below 4096 from one base name two addresses. -/
theorem offsetAddr_inj (base : Word) {j k : Nat} (hj : j < 4096) (hk : k < 4096)
    (h : offsetAddr base j = offsetAddr base k) : j = k := by
  have := congrArg BitVec.toNat h
  simp only [offsetAddr_toNat] at this
  omega

/-! ## The stack (R38) -/

/-- What a push can do. -/
theorem push_eq (a : Word) (h : s.sp.val < 16) :
    s.push a = some { s with stack := s.stack.set s.sp.val a, sp := ⟨s.sp.val + 1, by omega⟩ } := by
  simp [push, h]

theorem push_full (a : Word) (h : s.sp = 16) : s.push a = none := by simp [push, h]

/-- What a pop can do. -/
theorem pop_eq (h : 0 < s.sp.val) :
    s.pop = some (s.stack[s.sp.val - 1], { s with sp := ⟨s.sp.val - 1, by omega⟩ }) := by
  simp [pop, h]

theorem pop_empty (h : s.sp = 0) : s.pop = none := by simp [pop, h]

/-- SP is below 16 or is 16. -/
theorem sp_cases : s.sp.val < 16 ∨ s.sp = 16 := by
  have := s.sp.isLt
  by_cases h : s.sp.val < 16
  · exact .inl h
  · exact .inr (Fin.ext (by simp; omega))

end Sys2Proof.Machine.State
end

