-- ==== Sys2Proof/Laws/Sprite.lean ====
section
/-! SUPPORT. The sprite engine: what a sequence of toggles of distinct cells can do, said once (R203, R205). -/

namespace Sys2Proof.Machine

/-- The cell of row `q` and column `c` of a framebuffer. -/
def cellOf (fb : Framebuffer) (q : RowId) (c : ColId) : Bool := (fb[q.val])[c.val]

theorem pixel_eq_cellOf (s : State) (q : RowId) (c : ColId) : s.pixel q c = cellOf s.fb q c := rfl

/-- What one toggle can do. -/
theorem cellOf_toggleCell (q : RowId) (c : ColId) (d : Drawing) (p : RowId) (e : ColId) :
    cellOf (toggleCell q c d).1 p e = if p = q ∧ e = c then !cellOf d.1 p e else cellOf d.1 p e := by
  by_cases hp : p = q
  · subst hp
    by_cases he : e = c
    · subst he; simp [cellOf, toggleCell]
    · have : c.val ≠ e.val := fun h => he (Fin.ext h.symm)
      simp [cellOf, toggleCell, he, Vector.getElem_set_ne, this]
  · have : q.val ≠ p.val := fun h => hp (Fin.ext h.symm)
    simp [cellOf, toggleCell, hp, Vector.getElem_set_ne, this]

theorem toggleCell_collide (q : RowId) (c : ColId) (d : Drawing) :
    (toggleCell q c d).2 = (d.2 || cellOf d.1 q c) := rfl

/-- Toggles of cells that are all different: exactly those cells change, and a collision is one of them having been set. -/
theorem foldl_toggleCell (cells : List (RowId × ColId)) (d : Drawing) (hnd : cells.Nodup) :
    (∀ q c, cellOf (cells.foldl (fun d z => toggleCell z.1 z.2 d) d).1 q c =
      if (q, c) ∈ cells then !cellOf d.1 q c else cellOf d.1 q c) ∧
    ((cells.foldl (fun d z => toggleCell z.1 z.2 d) d).2 = true ↔
      d.2 = true ∨ ∃ z ∈ cells, cellOf d.1 z.1 z.2 = true) := by
  induction cells generalizing d with
  | nil => simp
  | cons z rest ih =>
    obtain ⟨hz, hrest⟩ := List.nodup_cons.mp hnd
    obtain ⟨h1, h2⟩ := ih (toggleCell z.1 z.2 d) hrest
    refine ⟨fun q c => ?_, ?_⟩
    · rw [List.foldl_cons, h1, cellOf_toggleCell]
      by_cases e : (q, c) = z
      · subst e; simp [hz]
      · have : ¬(q = z.1 ∧ c = z.2) := fun h => e (Prod.ext h.1 h.2)
        simp [this, e]
    · rw [List.foldl_cons, h2, toggleCell_collide]
      have hsame : ∀ y ∈ rest, cellOf (toggleCell z.1 z.2 d).1 y.1 y.2 = cellOf d.1 y.1 y.2 := by
        intro y hy
        rw [cellOf_toggleCell, if_neg]
        rintro ⟨e1, e2⟩
        exact hz (by rw [← Prod.ext e1 e2]; exact hy)
      constructor
      · rintro (h | ⟨y, hy, hyt⟩)
        · rcases Bool.or_eq_true _ _ ▸ h with h | h
          · exact .inl h
          · exact .inr ⟨z, by simp, h⟩
        · exact .inr ⟨y, by simp [hy], hsame y hy ▸ hyt⟩
      · rintro (h | ⟨y, hy, hyt⟩)
        · exact .inl (by simp [h])
        · rcases List.mem_cons.mp hy with rfl | hy
          · exact .inl (by simp [hyt])
          · exact .inr ⟨y, hy, (hsame y hy).symm ▸ hyt⟩

/-! ## The cells of a sprite -/

/-- The offsets of the 1 bits of a row. -/
def rowBits (row : Byte) : List Nat := [0, 1, 2, 3, 4, 5, 6, 7].filter (fun b => row.getLsbD (7 - b))

/-- The cells that a sprite toggles, in the order of drawing. -/
def spriteCells (s : State) (ox oy : Byte) (n : Nat) : List (RowId × ColId) :=
  (List.range n).flatMap (fun r => (rowBits (s.readAt r)).map (fun b => (cellRow oy r, cellCol ox b)))

theorem foldl_filter_step {α β : Type} (p : α → Bool) (f : β → α → β) (l : List α) (d : β) :
    l.foldl (fun d b => if p b then f d b else d) d = (l.filter p).foldl f d := by
  induction l generalizing d with
  | nil => rfl
  | cons a rest ih => by_cases h : p a <;> simp [h, ih]

theorem drawRow_eq (ox oy : Byte) (r : Nat) (row : Byte) (d : Drawing) :
    drawRow ox oy r row d =
      ((rowBits row).map (fun b => (cellRow oy r, cellCol ox b))).foldl (fun d z => toggleCell z.1 z.2 d) d := by
  rw [List.foldl_map, rowBits, ← foldl_filter_step]; rfl

theorem foldl_rows {α : Type} (f : Nat → List α) (g : Drawing → α → Drawing) (l : List Nat) (d : Drawing) :
    l.foldl (fun d r => (f r).foldl g d) d = (l.flatMap f).foldl g d := by
  induction l generalizing d with
  | nil => rfl
  | cons r rest ih => simp [ih, List.foldl_append]

/-- A draw is the toggling of its cells, one after another. -/
theorem drawSprite_eq (s : State) (ox oy : Byte) (n : Nat) :
    drawSprite s ox oy n = (spriteCells s ox oy n).foldl (fun d z => toggleCell z.1 z.2 d) (s.fb, false) := by
  unfold drawSprite spriteCells
  simp only [drawRow_eq]
  exact foldl_rows _ _ _ _

theorem mem_rowBits (row : Byte) (b : Nat) : b ∈ rowBits row ↔ b < 8 ∧ row.getLsbD (7 - b) = true := by
  rw [rowBits, List.mem_filter]
  have : b ∈ [0, 1, 2, 3, 4, 5, 6, 7] ↔ b < 8 := by
    simp only [List.mem_cons, List.not_mem_nil, or_false]; omega
  rw [this]

/-- The cells of a sprite are the ones it covers (R200 to R202). -/
theorem mem_spriteCells (s : State) (ox oy : Byte) (n : Nat) (q : RowId) (c : ColId) :
    (q, c) ∈ spriteCells s ox oy n ↔ SpriteCovers s ox oy n q c := by
  simp only [spriteCells, List.mem_flatMap, List.mem_range, List.mem_map, mem_rowBits, Prod.mk.injEq, SpriteCovers]
  constructor
  · rintro ⟨r, hr, b, ⟨hb, hbit⟩, rfl, rfl⟩
    exact ⟨r, b, hr, hb, hbit, rfl, rfl⟩
  · rintro ⟨r, b, hr, hb, hbit, hq, hc⟩
    exact ⟨r, hr, b, ⟨hb, hbit⟩, Fin.ext hq.symm, Fin.ext hc.symm⟩

/-- One draw of a sprite of at most 32 rows toggles each cell at most once (R205). -/
theorem spriteCells_nodup (s : State) (ox oy : Byte) (n : Nat) (hn : n ≤ 32) : (spriteCells s ox oy n).Nodup := by
  rw [spriteCells, List.nodup_flatMap]
  refine ⟨fun r _ => ?_, ?_⟩
  · refine List.Nodup.map_on ?_ (List.Nodup.filter _ (by decide))
    intro b hb b' hb' h
    have hb := (mem_rowBits _ _).mp hb
    have hb' := (mem_rowBits _ _).mp hb'
    have h2 : (cellCol ox b).val = (cellCol ox b').val := by rw [(Prod.mk.inj h).2]
    simp only [cellCol, Fin.val_ofNat] at h2
    omega
  · refine List.Pairwise.imp_of_mem ?_ List.nodup_range
    intro r r' hr hr' hne
    have hr := List.mem_range.mp hr
    have hr' := List.mem_range.mp hr'
    rw [Function.onFun, List.disjoint_left]
    rintro ⟨q, c⟩ h h'
    obtain ⟨b, _, hb⟩ := List.mem_map.mp h
    obtain ⟨b', _, hb'⟩ := List.mem_map.mp h'
    have h1 : (cellRow oy r).val = (cellRow oy r').val := by rw [(Prod.mk.inj hb).1, (Prod.mk.inj hb').1]
    simp only [cellRow, Fin.val_ofNat] at h1
    omega

/-- What a draw can do: exactly the covered cells are toggled. -/
theorem drawSprite_pixel (s : State) (ox oy : Byte) (n : Nat) (hn : n ≤ 32) (q : RowId) (c : ColId) :
    (SpriteCovers s ox oy n q c → cellOf (drawSprite s ox oy n).1 q c = !s.pixel q c) ∧
    (¬SpriteCovers s ox oy n q c → cellOf (drawSprite s ox oy n).1 q c = s.pixel q c) := by
  have h := (foldl_toggleCell _ (s.fb, false) (spriteCells_nodup s ox oy n hn)).1 q c
  rw [drawSprite_eq, h]
  constructor <;> intro hc
  · rw [if_pos ((mem_spriteCells ..).mpr hc)]; rfl
  · rw [if_neg (fun hm => hc ((mem_spriteCells ..).mp hm))]; rfl

/-- A draw collides exactly when a covered cell was set. -/
theorem drawSprite_collide (s : State) (ox oy : Byte) (n : Nat) (hn : n ≤ 32) :
    (drawSprite s ox oy n).2 = true ↔ ∃ q c, SpriteCovers s ox oy n q c ∧ s.pixel q c = true := by
  rw [drawSprite_eq, (foldl_toggleCell _ (s.fb, false) (spriteCells_nodup s ox oy n hn)).2]
  constructor
  · rintro (h | ⟨⟨q, c⟩, hz, hp⟩)
    · exact absurd h Bool.false_ne_true
    · exact ⟨q, c, (mem_spriteCells ..).mp hz, hp⟩
  · rintro ⟨q, c, hz, hp⟩
    exact .inr ⟨(q, c), (mem_spriteCells ..).mpr hz, hp⟩

end Sys2Proof.Machine
end

