-- ==== Sys2Proof/Laws/Keys.lean ====
section
/-! SUPPORT. Key events and latch reads (R62, R85, R236). -/

namespace Sys2Proof.Machine

theorem landKey_in {e : KeyEvent} {k : KeyId} (h : e.index = (k.val : Int)) (key : Vector Bool 16) :
    landKey key e = key.set k.val e.pressed := by
  have hk := k.isLt
  have h' : 0 ≤ e.index ∧ e.index < 16 := by omega
  have ht : e.index.toNat = k.val := by omega
  unfold landKey
  rw [dif_pos h']
  congr 1

theorem landKey_out {e : KeyEvent} (h : e.index < 0 ∨ 15 < e.index) (key : Vector Bool 16) : landKey key e = key := by
  have : ¬(0 ≤ e.index ∧ e.index < 16) := by omega
  simp [landKey, this]

@[simp] theorem landKeys_nil (key : Vector Bool 16) : landKeys key [] = key := rfl

theorem landKeys_append (key : Vector Bool 16) (as bs : List KeyEvent) :
    landKeys key (as ++ bs) = landKeys (landKeys key as) bs := by
  simp [landKeys, List.foldl_append]

/-- The groups that have landed at the `nth` read are the first of the events of the step. -/
theorem arrivals_landed (gs : List (List KeyEvent)) (n : Nat) :
    ∃ m, m ≤ gs.flatten.length ∧ (gs.take n).flatten = gs.flatten.take m := by
  have h : gs.flatten = (gs.take n).flatten ++ (gs.drop n).flatten := by
    rw [← List.flatten_append, List.take_append_drop]
  refine ⟨(gs.take n).flatten.length, ?_, ?_⟩
  · rw [h, List.length_append]; exact Nat.le_add_right _ _
  · rw [h]; exact List.take_left.symm

/-- With no key event during the step every read is of the latch as it stands. -/
theorem State.latch_quiet {s : State} (h : s.arrivals = []) (nth : Nat) (k : KeyId) : s.latch nth k = s.key[k.val] := by
  simp [State.latch, h]

theorem State.arrivals_of_no_agenda {s : State} (h : s.agenda = []) : s.arrivals = [] := by
  simp [State.arrivals, h]

/-- The scan finds no key exactly when no latch reads true in its turn (R236). -/
theorem State.scanKeys_none {s : State} : s.scanKeys = none ↔ ∀ k : KeyId, s.latch k.val k = false := by
  have hall : ∀ k : KeyId, k ∈ allRegs := by decide
  simp only [State.scanKeys, List.find?_eq_none]
  constructor
  · intro h k; simpa using h k (hall k)
  · intro h k _; simpa using h k

/-- The scan finds the lowest key that reads true in its turn (R237). -/
theorem State.scanKeys_some {s : State} {k : KeyId} (hk : s.latch k.val k = true)
    (hlow : ∀ j : KeyId, j < k → s.latch j.val j = false) : s.scanKeys = some k := by
  have hsplit : ∀ k : KeyId, allRegs = (allRegs.take k.val) ++ k :: allRegs.drop (k.val + 1) := by decide
  have hbefore : ∀ k j : KeyId, j ∈ allRegs.take k.val → j < k := by decide
  rw [State.scanKeys, hsplit k, List.find?_append, List.find?_cons_of_pos (by simpa using hk)]
  have : (allRegs.take k.val).find? (fun j => s.latch j.val j) = none := by
    rw [List.find?_eq_none]
    intro j hj
    simp [hlow j (hbefore k j hj)]
  rw [this]; rfl

end Sys2Proof.Machine
end

