-- ==== Sys2Proof/Laws/Memory.lean ====
section
/-! SUPPORT. Memory: a read after a write, and the canonical form. -/

namespace Sys2Proof.Machine.Memory

/-! ## Reading after writing -/

theorem read_erase_same (m : Memory) (a : Nat) : (Memory.erase m a).read a = resetByte a := by
  induction m with
  | nil => rfl
  | cons c rest ih =>
    obtain ⟨k, b⟩ := c
    by_cases h : k = a
    · simpa [Memory.erase, h] using ih
    · have : (k != a) = true := by simpa using h
      simpa [Memory.erase, this, Memory.read, h] using ih

theorem read_erase_other (m : Memory) {a q : Nat} (hq : q ≠ a) : (Memory.erase m a).read q = m.read q := by
  induction m with
  | nil => rfl
  | cons c rest ih =>
    obtain ⟨k, b⟩ := c
    by_cases h : k = a
    · have hk : k ≠ q := fun e => hq (e ▸ h)
      simpa [Memory.erase, h, Memory.read, h ▸ hk] using ih
    · have : (k != a) = true := by simpa using h
      simp only [Memory.erase, List.filter_cons, this, if_true, Memory.read] at ih ⊢
      rw [ih]

theorem read_insert (m : Memory) (a : Nat) (b : Byte) (h : ∀ c ∈ m, c.1 ≠ a) (q : Nat) :
    (Memory.insert a b m).read q = if q = a then b else m.read q := by
  induction m with
  | nil => by_cases e : a = q <;> simp [Memory.insert, Memory.read, e, eq_comm]
  | cons c rest ih =>
    obtain ⟨k, d⟩ := c
    have hk : k ≠ a := h (k, d) (by simp)
    have ih := ih (fun c hc => h c (by simp [hc]))
    by_cases hlt : a < k
    · rw [Memory.insert, if_pos hlt]
      by_cases e : q = a
      · simp [Memory.read, e]
      · simp [Memory.read, e, Ne.symm e]
    · simp only [Memory.insert, hlt, if_false, Memory.read]
      by_cases e : k = q
      · subst e; simp [hk]
      · simp [e, ih]

theorem erase_no_entry (m : Memory) (a : Nat) : ∀ c ∈ Memory.erase m a, c.1 ≠ a := by
  intro c hc
  simpa [Memory.erase] using (List.mem_filter.mp hc).2

/-- A read after a write: the byte written at its address, the byte before at every other. -/
theorem read_write (m : Memory) (a : Nat) (b : Byte) (q : Nat) :
    (m.write a b).read q = if q = a then b else m.read q := by
  unfold Memory.write
  split
  · next hb =>
    by_cases e : q = a
    · subst e; simp [read_erase_same, hb]
    · simp [e, read_erase_other m e]
  · rw [read_insert _ _ _ (erase_no_entry m a)]
    by_cases e : q = a <;> simp [e, read_erase_other]

/-! ## The canonical form -/

theorem wfFrom_mono {m : Memory} {lo lo' : Nat} (h : lo' ≤ lo) (hm : m.wfFrom lo = true) : m.wfFrom lo' = true := by
  cases m with
  | nil => rfl
  | cons c rest =>
    obtain ⟨k, b⟩ := c
    simp only [Memory.wfFrom, Bool.and_eq_true, decide_eq_true_eq] at hm ⊢
    exact ⟨⟨⟨by omega, hm.1.1.2⟩, hm.1.2⟩, hm.2⟩

theorem wfFrom_erase {m : Memory} {lo : Nat} (a : Nat) (hm : m.wfFrom lo = true) :
    (Memory.erase m a).wfFrom lo = true := by
  induction m generalizing lo with
  | nil => rfl
  | cons c rest ih =>
    obtain ⟨k, b⟩ := c
    simp only [Memory.wfFrom, Bool.and_eq_true, decide_eq_true_eq] at hm
    by_cases h : k = a
    · simpa [Memory.erase, h] using wfFrom_mono (by omega) (ih hm.2)
    · have hk : (k != a) = true := by simpa using h
      have := ih hm.2
      simp only [Memory.erase, List.filter_cons, hk, if_true, Memory.wfFrom, Bool.and_eq_true,
        decide_eq_true_eq] at this ⊢
      exact ⟨hm.1, this⟩

theorem wfFrom_insert {m : Memory} {lo a : Nat} {b : Byte} (hm : m.wfFrom lo = true) (hlo : lo ≤ a)
    (ha : a < Config.memSize) (hb : b ≠ resetByte a) (hno : ∀ c ∈ m, c.1 ≠ a) :
    (Memory.insert a b m).wfFrom lo = true := by
  induction m generalizing lo with
  | nil => simp [Memory.insert, Memory.wfFrom, hlo, ha, hb]
  | cons c rest ih =>
    obtain ⟨k, d⟩ := c
    simp only [Memory.wfFrom, Bool.and_eq_true, decide_eq_true_eq] at hm
    have hk : k ≠ a := hno (k, d) (by simp)
    by_cases hlt : a < k
    · simp only [Memory.insert, hlt, if_true, Memory.wfFrom, Bool.and_eq_true, decide_eq_true_eq]
      exact ⟨⟨⟨hlo, ha⟩, hb⟩, ⟨⟨hlt, hm.1.1.2⟩, hm.1.2⟩, hm.2⟩
    · simp only [Memory.insert, hlt, if_false, Memory.wfFrom, Bool.and_eq_true, decide_eq_true_eq]
      exact ⟨hm.1, ih hm.2 (by omega) (fun c hc => hno c (by simp [hc]))⟩

/-- A write inside the address space keeps the canonical form. -/
theorem wf_write {m : Memory} (hm : m.wf = true) {a : Nat} (ha : a < Config.memSize) (b : Byte) :
    (m.write a b).wf = true := by
  unfold Memory.write Memory.wf
  split
  · exact wfFrom_erase a hm
  · next hb => exact wfFrom_insert (wfFrom_erase a hm) (by omega) ha hb (erase_no_entry m a)

/-! ## The loader's copy -/

/-- What a copy of consecutive bytes can do. -/
theorem read_writeBytes (bs : List Byte) (m : Memory) (base q : Nat) :
    (m.writeBytes base bs).read q =
      if base ≤ q ∧ q < base + bs.length then bs.getD (q - base) 0 else m.read q := by
  induction bs generalizing m base with
  | nil => simp [Memory.writeBytes]
  | cons b rest ih =>
    rw [Memory.writeBytes, ih, read_write]
    by_cases e : q = base
    · subst e; simp
    · by_cases h : base + 1 ≤ q ∧ q < base + 1 + rest.length
      · have h' : base ≤ q ∧ q < base + (b :: rest).length := by simp only [List.length_cons]; omega
        have : q - base = (q - (base + 1)) + 1 := by omega
        rw [if_pos h, if_pos h', this, List.getD_cons_succ]
      · have h' : ¬(base ≤ q ∧ q < base + (b :: rest).length) := by simp only [List.length_cons]; omega
        rw [if_neg h, if_neg h', if_neg e]

theorem wf_writeBytes (bs : List Byte) {m : Memory} (hm : m.wf = true) (base : Nat)
    (h : base + bs.length ≤ Config.memSize) : (m.writeBytes base bs).wf = true := by
  induction bs generalizing m base with
  | nil => exact hm
  | cons b rest ih =>
    simp only [List.length_cons] at h
    exact ih (wf_write hm (by omega) b) (base + 1) (by omega)

/-- Writing what is there already leaves empty memory empty. -/
theorem writeBytes_resetByte (bs : List Byte) (base : Nat) (h : ∀ k (hk : k < bs.length), bs[k] = resetByte (base + k)) :
    Memory.writeBytes [] base bs = [] := by
  induction bs generalizing base with
  | nil => rfl
  | cons b rest ih =>
    have h0 : b = resetByte base := h 0 (by simp)
    have hw : Memory.write [] base b = [] := by simp [Memory.write, h0, Memory.erase]
    rw [Memory.writeBytes, hw]
    refine ih (base + 1) (fun k hk => ?_)
    have := h (k + 1) (by simpa using hk)
    simpa [Nat.add_assoc, Nat.add_comm 1 k] using this

end Sys2Proof.Machine.Memory

namespace Sys2Proof.Machine.State

/-! ## Through the state -/

theorem read_setByte (s : State) (a : Addr) (b : Byte) (q : Addr) :
    (s.setByte a b).read q = if q = a then b else s.read q := by
  simp only [read, setByte_mem, Memory.read_write]
  by_cases e : q = a
  · simp [e]
  · have : q.toNat ≠ a.toNat := fun h => e (BitVec.eq_of_toNat_eq h)
    simp [e, this]

theorem wf_setByte {s : State} (h : s.mem.wf = true) (a : Addr) (b : Byte) : (s.setByte a b).mem.wf = true :=
  Memory.wf_write h a.isLt b

end Sys2Proof.Machine.State
end

