-- ==== Sys2Proof/Laws/Writes.lean ====
section
/-! SUPPORT. Instruction writes (R74): what a run of them can do, said once. -/

namespace Sys2Proof.Machine

/-! ## One write -/

theorem memWrite_reserved {a : Addr} (h : isReserved a = true) (b : Byte) (p : Writing) :
    memWrite a b p = (p.1, p.2 ++ [a]) := by simp [memWrite, h]

theorem memWrite_allowed {a : Addr} (h : isReserved a = false) (b : Byte) (p : Writing) :
    memWrite a b p = (p.1.setByte a b, p.2) := by simp [memWrite, h]

/-- A write changes memory only. -/
theorem memWrite_fields (a : Addr) (b : Byte) (p : Writing) :
    (memWrite a b p).1 = { p.1 with mem := (memWrite a b p).1.mem } := by
  unfold memWrite; split <;> rfl

theorem memWrite_suppressed (a : Addr) (b : Byte) (p : Writing) :
    (memWrite a b p).2 = p.2 ++ [a].filter isReserved := by
  unfold memWrite; split <;> simp_all

theorem memWrite_read (a : Addr) (b : Byte) (p : Writing) (q : Addr) :
    (memWrite a b p).1.read q = if q = a ∧ isReserved a = false then b else p.1.read q := by
  unfold memWrite
  split
  · next h => simp [h]
  · next h => simp [State.read_setByte, Bool.eq_false_iff.mpr h]

theorem memWrite_wf (a : Addr) (b : Byte) {p : Writing} (h : p.1.mem.wf = true) : (memWrite a b p).1.mem.wf = true := by
  unfold memWrite
  split
  · exact h
  · exact State.wf_setByte h a b

/-! ## Writes from an index -/

/-- A run of writes changes memory only. -/
theorem memWriteFrom_fields (base : Word) (k : Nat) (bs : List Byte) (p : Writing) :
    (memWriteFrom base k bs p).1 = { p.1 with mem := (memWriteFrom base k bs p).1.mem } := by
  induction bs generalizing k p with
  | nil => rfl
  | cons b rest ih =>
    rw [memWriteFrom, ih, memWrite_fields]

/-- The suppressed addresses are the reserved ones among those tried, in order. -/
theorem memWriteFrom_suppressed (base : Word) (k : Nat) (bs : List Byte) (p : Writing) :
    (memWriteFrom base k bs p).2 = p.2 ++ ((List.range' k bs.length).map (offsetAddr base)).filter isReserved := by
  induction bs generalizing k p with
  | nil => simp [memWriteFrom]
  | cons b rest ih =>
    rw [memWriteFrom, ih, memWrite_suppressed, List.length_cons, List.range'_succ, List.map_cons, List.append_assoc,
      ← List.filter_append, List.singleton_append]

/-- An address outside the allowed ones of a run of writes keeps its byte. -/
theorem memWriteFrom_read_other (base : Word) (k : Nat) (bs : List Byte) (p : Writing) (q : Addr)
    (h : ∀ j, k ≤ j → j < k + bs.length → q = offsetAddr base j → isReserved q = true) :
    (memWriteFrom base k bs p).1.read q = p.1.read q := by
  induction bs generalizing k p with
  | nil => rfl
  | cons b rest ih =>
    simp only [List.length_cons] at h
    rw [memWriteFrom, ih _ _ (fun j h1 h2 h3 => h j (by omega) (by omega) h3), memWrite_read, if_neg]
    rintro ⟨rfl, hr⟩
    exact Bool.false_ne_true (hr.symm.trans (h k (by omega) (by omega) rfl))

/-- An allowed address of a run of at most 4096 writes holds the byte written there. -/
theorem memWriteFrom_read_stored (base : Word) (k : Nat) (bs : List Byte) (p : Writing) (hlen : k + bs.length ≤ 4096)
    (j : Nat) (hj : j < bs.length) (hr : isReserved (offsetAddr base (k + j)) = false) :
    (memWriteFrom base k bs p).1.read (offsetAddr base (k + j)) = bs[j] := by
  induction bs generalizing k p j with
  | nil => simp at hj
  | cons b rest ih =>
    simp only [List.length_cons] at hlen hj
    rw [memWriteFrom]
    cases j with
    | zero =>
      rw [memWriteFrom_read_other, memWrite_read]
      · simp_all
      · intro i h1 h2 h3
        have := State.offsetAddr_inj base (by omega) (by omega) h3
        omega
    | succ j =>
      have e : k + (j + 1) = k + 1 + j := by omega
      rw [e] at hr ⊢
      exact ih (k + 1) _ (by omega) j (by omega) hr

theorem memWriteFrom_wf (base : Word) (k : Nat) (bs : List Byte) {p : Writing} (h : p.1.mem.wf = true) :
    (memWriteFrom base k bs p).1.mem.wf = true := by
  induction bs generalizing k p with
  | nil => exact h
  | cons b rest ih => exact ih (k + 1) (memWrite_wf _ b h)

/-! ## The report -/

/-- The report of suppressed writes changes the fault log only, and only if something was suppressed. -/
theorem reportSuppressed_eq (pc0 w : Word) (p : Writing) :
    reportSuppressed pc0 w p =
      { p.1 with faults := if p.2 = [] then p.1.faults else p.1.faults ++ [⟨.reservedWrite p.2, pc0, w⟩] } := by
  obtain ⟨s, as⟩ := p
  cases as <;> rfl

/-! ## The loop of FX65 -/

/-- What a run of register writes can do: the last write of a register named in the list, no other field. -/
theorem foldl_setReg (f : RegId → Byte) (rs : List RegId) (s : State) :
    (rs.foldl (fun u r => u.setReg r (f r)) s) = { s with v := (rs.foldl (fun u r => u.setReg r (f r)) s).v } ∧
    ∀ q, (rs.foldl (fun u r => u.setReg r (f r)) s).reg q = if q ∈ rs then f q else s.reg q := by
  induction rs generalizing s with
  | nil => exact ⟨rfl, fun q => by simp⟩
  | cons r rest ih =>
    obtain ⟨h1, h2⟩ := ih (s.setReg r (f r))
    refine ⟨?_, fun q => ?_⟩
    · rw [List.foldl_cons, h1]; rfl
    · rw [List.foldl_cons, h2, State.reg_setReg]
      by_cases hq : q = r
      · subst hq; simp
      · simp [hq]

/-- The registers of a range copy are those up to x (R228, R229). -/
theorem mem_regRange (x r : RegId) : r ∈ regRange x ↔ r ≤ x := by
  revert x r; decide

theorem regRange_length (x : RegId) : (regRange x).length = x.val + 1 := by
  revert x; decide

theorem regRange_getElem (x : RegId) (k : Nat) (h : k < (regRange x).length) : ((regRange x)[k]).val = k := by
  have h' : k < 16 := by rw [regRange_length] at h; omega
  revert x
  interval_cases k <;> decide

theorem storeAddrs_eq (s : State) (n : Nat) : storeAddrs s n = (List.range' 0 n).map (offsetAddr s.index) := by
  rw [storeAddrs, List.range_eq_range']

end Sys2Proof.Machine
end

