-- ==== Sys2Proof/Laws/Step.lean ====
section
/-! SUPPORT. What one step can do, and what the outside events around it can do, said once. -/

namespace Sys2Proof.Machine

namespace State

/-! ## Outside events (R280, R62, R305) -/

/-- An outside event changes memory, the timers and the latches only. -/
theorem hostEvent_fields (s : State) (e : HostEvent) :
    s.hostEvent e =
      { s with mem := (s.hostEvent e).mem, dt := (s.hostEvent e).dt, st := (s.hostEvent e).st, key := (s.hostEvent e).key } := by
  cases e with
  | tick => rfl
  | setKey e => rfl
  | load bytes => simp only [hostEvent, load]; split <;> rfl

theorem hostEvents_fields (es : List HostEvent) (s : State) :
    s.hostEvents es =
      { s with mem := (s.hostEvents es).mem, dt := (s.hostEvents es).dt, st := (s.hostEvents es).st,
               key := (s.hostEvents es).key } := by
  induction es generalizing s with
  | nil => rfl
  | cons e rest ih =>
    have h : s.hostEvents (e :: rest) = (s.hostEvent e).hostEvents rest := rfl
    rw [h, ih, hostEvent_fields]

/-- A load keeps the bytes below 0x200. -/
theorem hostEvent_read_reserved (s : State) (e : HostEvent) {a : Addr} (ha : a.toNat < 0x200) :
    (s.hostEvent e).read a = s.read a := by
  cases e with
  | tick => rfl
  | setKey e => rfl
  | load bytes =>
    simp only [hostEvent, load]
    split
    · rfl
    · have : ¬(Config.progBase ≤ a.toNat ∧ a.toNat < Config.progBase + bytes.length) := by
        simp only [Config.progBase]; omega
      simp [State.read, Memory.read_writeBytes, this]

theorem hostEvents_read_reserved (es : List HostEvent) (s : State) {a : Addr} (ha : a.toNat < 0x200) :
    (s.hostEvents es).read a = s.read a := by
  induction es generalizing s with
  | nil => rfl
  | cons e rest ih => exact (ih (s.hostEvent e)).trans (hostEvent_read_reserved s e ha)

/-- An outside event keeps memory canonical. -/
theorem hostEvent_wf {s : State} (h : s.mem.wf = true) (e : HostEvent) : (s.hostEvent e).mem.wf = true := by
  cases e with
  | tick => exact h
  | setKey e => exact h
  | load bytes =>
    simp only [hostEvent, load]
    split
    · exact h
    · next hl =>
      refine Memory.wf_writeBytes _ h _ ?_
      simp only [Config.progMax, Config.progBase, Config.memSize] at *
      omega

theorem hostEvents_wf (es : List HostEvent) {s : State} (h : s.mem.wf = true) : (s.hostEvents es).mem.wf = true := by
  induction es generalizing s with
  | nil => exact h
  | cons e rest ih => exact ih (hostEvent_wf h e)

/-- What the beginning of a step is: outside events, with only the agenda changed besides. -/
theorem beginStep_eq (s : State) : ∃ es a, s.beginStep = { s.hostEvents es with agenda := a } := by
  unfold beginStep
  cases h : s.agenda with
  | nil => exact ⟨[], s.agenda, rfl⟩
  | cons slot rest => exact ⟨slot.before, _, rfl⟩

theorem beginStep_of_no_agenda {s : State} (h : s.agenda = []) : s.beginStep = s := by
  simp [beginStep, h]

theorem endStep_of_no_agenda {s : State} (h : s.agenda = []) : s.endStep = s := by
  obtain ⟨⟩ := s
  simp only at h
  subst h
  rfl

/-! ## The fetch (R73, R76) -/

theorem fetchWord_toNat (s : State) :
    s.fetchWord.toNat = (s.read (toAddr s.pc)).toNat * 256 + (s.read (toAddr (s.pc + 1))).toNat :=
  beWord_toNat _ _

/-- The fetch depends on `pc` and memory only. -/
theorem fetchWord_congr {s t : State} (hp : t.pc = s.pc) (hm : ∀ a, t.read a = s.read a) : t.fetchWord = s.fetchWord := by
  simp [fetchWord, hp, hm]

end State

/-! ## One step (R100) -/

/-- What a cycle can do. -/
theorem cycle_cases {s t : State} (h : cycle s = .next t) :
    (∃ i, decodeWord s.fetchWord = .insn i ∧ exec i s = .next t) ∨
    (decodeWord s.fetchWord = .decodeFault ∧ t = s.decodeFault) ∨
    (decodeWord s.fetchWord = .selectorFault ∧ t = s.selectorFault) := by
  unfold cycle at h
  split at h
  · next i hi => exact .inl ⟨i, hi, h⟩
  · next hd => exact .inr (.inl ⟨hd, (Host.Outcome.next.inj h).symm⟩)
  · next hd => exact .inr (.inr ⟨hd, (Host.Outcome.next.inj h).symm⟩)

/-- What a step can do: the outside events of its slot, a cycle, the end of the slot. -/
theorem step_cases {s t : State} (h : step s = .next t) : ∃ u, cycle s.beginStep = .next u ∧ t = u.endStep := by
  unfold step at h
  cases hc : cycle s.beginStep with
  | next u =>
    rw [hc] at h
    exact ⟨u, rfl, (Host.Outcome.next.inj h).symm⟩
  | fault r => exact nomatch r
  | refused r => rw [hc] at h; exact nomatch h

end Sys2Proof.Machine
end

