-- ==== Sys2Proof/Laws/Exec.lean ====
section
/-! SUPPORT. What the meanings can do, said once per shared form: results with and without a flag, skips, the store and load
ranges, address operands. -/

namespace Sys2Proof.Machine

/-! ## Operands -/

theorem addrOperand_toNat (nnn : Addr) : (addrOperand nnn).toNat = nnn.toNat := by
  have := nnn.isLt
  simp [addrOperand]; omega

theorem lowNibble_eq (b : Byte) (k : KeyId) (h : k.val = b.toNat % 16) : lowNibble b = k := by
  apply Fin.ext
  rw [h]
  show (b.extractLsb' 0 4).toNat = _
  simp [BitVec.extractLsb'_toNat]

theorem decimalDigits_toNat (b : Byte) :
    ((decimalDigits b)[0]'(by simp [decimalDigits])).toNat = b.toNat / 100 ∧
    ((decimalDigits b)[1]'(by simp [decimalDigits])).toNat = b.toNat / 10 % 10 ∧
    ((decimalDigits b)[2]'(by simp [decimalDigits])).toNat = b.toNat % 10 := by
  have := b.isLt
  simp [decimalDigits]; omega

theorem State.readAt_eq (s : State) (k : Nat) : s.readAt k = s.read (BitVec.ofNat 12 (s.index.toNat + k)) := by
  rw [State.readAt]
  congr 1
  apply BitVec.eq_of_toNat_eq
  rw [State.offsetAddr_toNat]; simp

theorem State.bumpIndex_toNat (x : RegId) (s : State) :
    (s.bumpIndex x).index.toNat = (s.index.toNat + x.val + 1) % 4096 := by
  simp only [State.bumpIndex, State.setIndex_index, State.mask12_toNat, BitVec.toNat_add, BitVec.toNat_ofNat]
  omega

/-! ## The program counter -/

theorem nextPc_of_advance (s : State) {t : State} (h : t.pc = s.advance.pc) : NextPc 2 s t := by
  rw [NextPc, h, State.advance_pc_toNat]

theorem nextPc_of_skipIf (s : State) (c : Bool) {k : Nat} (h : k = if c then 4 else 2) : NextPc k s (s.skipIf c) := by
  rw [NextPc, State.skipIf_pc_toNat, h]

/-! ## One register written -/

theorem reg_of_setReg (s : State) (x : RegId) (b : Byte) {t : State} (h : t.v = (s.setReg x b).v) : t.reg x = b := by
  rw [State.reg_congr h]; simp

theorem regsKept_of_setReg (s : State) (x : RegId) (b : Byte) {t : State} (h : t.v = (s.setReg x b).v) :
    RegsKept [x] s t := by
  intro r hr
  simp only [List.mem_singleton] at hr
  rw [State.reg_congr h, State.reg_setReg]; simp [hr]

/-- A result, then a flag (R31, R170): the result where the destination is not VF, the flag in VF, no other register. -/
theorem regs_of_setReg_setFlag (s : State) (x : RegId) (b : Byte) (c : Bool) {t : State}
    (h : t.v = ((s.setReg x b).setFlag c).v) :
    (x ≠ VF → t.reg x = b) ∧ t.reg VF = flagByte c ∧ RegsKept [x, VF] s t := by
  refine ⟨fun hx => ?_, ?_, fun r hr => ?_⟩
  · rw [State.reg_congr h, State.setFlag_eq, State.reg_setReg_other _ _ hx]; simp
  · rw [State.reg_congr h, State.setFlag_eq]; simp
  · simp only [List.mem_cons, List.not_mem_nil, or_false, not_or] at hr
    rw [State.reg_congr h, State.setFlag_eq, State.reg_setReg, State.reg_setReg]; simp [hr]

/-! ## Stores and loads at the index -/

/-- What LD B can do (R227): the digits at the allowed ones of three addresses, one report, pc + 2. -/
theorem execLdB_eq (x : RegId) (s : State) :
    ∃ u : State, ∃ m, u = { s with mem := m } ∧ (s.mem.wf = true → m.wf = true) ∧
    (∀ j, (hj : j < 3) → isReserved (offsetAddr s.index j) = false →
      u.read (offsetAddr s.index j) = (decimalDigits (s.reg x))[j]'(by simpa [decimalDigits] using hj)) ∧
    BytesKept ((storeAddrs s 3).filter (fun a => !isReserved a)) s u ∧
    exec (.ldB x) s =
      .next { u.advance with faults := faultsAfterStores s (encode (.ldB x)) (storeAddrs s 3) } := by
  refine ⟨(memWriteFrom s.index 0 (decimalDigits (s.reg x)) (s, [])).1, _, memWriteFrom_fields _ _ _ _, ?_, ?_, ?_, ?_⟩
  · intro h; exact memWriteFrom_wf s.index 0 _ (p := (s, [])) h
  · intro j hj hr
    have := memWriteFrom_read_stored s.index 0 (decimalDigits (s.reg x)) (s, []) (by simp [decimalDigits]) j (by simpa [decimalDigits] using hj)
    simp only [Nat.zero_add] at this
    exact this hr
  · intro a ha
    refine memWriteFrom_read_other _ _ _ _ a ?_
    intro j _ hj e
    by_contra hr
    apply ha
    simp only [decimalDigits, List.length_cons, List.length_nil] at hj
    simp only [storeAddrs, List.mem_filter, List.mem_map, List.mem_range]
    exact ⟨⟨j, by omega, e.symm⟩, by simpa using hr⟩
  · simp only [exec, execLdB, reportSuppressed_eq, memWriteFrom_suppressed, faultsAfterStores, storeAddrs_eq]
    simp only [show (decimalDigits (s.reg x)).length = 3 from rfl, List.nil_append]
    rw [show (State.advance (memWriteFrom s.index 0 (decimalDigits (s.reg x)) (s, [])).1).faults = s.faults by
      rw [memWriteFrom_fields]; rfl]

/-- What LD [I], Vx can do (R228): V0 to Vx at the allowed ones of their addresses, one report, I past them, pc + 2. -/
theorem execStoreRegs_eq (x : RegId) (s : State) :
    ∃ u : State, ∃ m, u = { s with mem := m } ∧ (s.mem.wf = true → m.wf = true) ∧
    (∀ r : RegId, r ≤ x → isReserved (offsetAddr s.index r.val) = false →
      u.read (offsetAddr s.index r.val) = s.reg r) ∧
    BytesKept ((storeAddrs s (x.val + 1)).filter (fun a => !isReserved a)) s u ∧
    exec (.storeRegs x) s =
      .next { (u.bumpIndex x).advance with
        faults := faultsAfterStores s (encode (.storeRegs x)) (storeAddrs s (x.val + 1)) } := by
  have hlen : (s.rangeBytes x).length = x.val + 1 := by simp [State.rangeBytes, regRange_length]
  refine ⟨(memWriteFrom s.index 0 (s.rangeBytes x) (s, [])).1, _, memWriteFrom_fields _ _ _ _, ?_, ?_, ?_, ?_⟩
  · intro h; exact memWriteFrom_wf s.index 0 _ (p := (s, [])) h
  · intro r hr hres
    have hx := x.isLt
    have hr' : r.val ≤ x.val := hr
    have := memWriteFrom_read_stored s.index 0 (s.rangeBytes x) (s, []) (by rw [hlen]; omega) r.val (by rw [hlen]; omega)
    simp only [Nat.zero_add] at this
    rw [this hres]
    simp only [State.rangeBytes, List.getElem_map]
    congr 1
    apply Fin.ext
    rw [regRange_getElem]
  · intro a ha
    refine memWriteFrom_read_other _ _ _ _ a ?_
    intro j _ hj e
    by_contra hr
    apply ha
    rw [hlen] at hj
    simp only [storeAddrs, List.mem_filter, List.mem_map, List.mem_range]
    exact ⟨⟨j, by omega, e.symm⟩, by simpa using hr⟩
  · simp only [exec, execStoreRegs, reportSuppressed_eq, memWriteFrom_suppressed, faultsAfterStores, storeAddrs_eq]
    simp only [hlen, List.nil_append]
    rw [show (State.advance (State.bumpIndex x (memWriteFrom s.index 0 (s.rangeBytes x) (s, [])).1)).faults = s.faults by
      rw [memWriteFrom_fields]; rfl]

/-- What LD Vx, [I] can do (R229): the bytes at I into V0 to Vx, I past them, pc + 2. -/
theorem execLoadRegs_eq (x : RegId) (s : State) :
    ∃ v, exec (.loadRegs x) s = .next (({ s with v := v }.bumpIndex x).advance) ∧
    ∀ r, ({ s with v := v } : State).reg r = if r ≤ x then s.readAt r.val else s.reg r := by
  obtain ⟨h1, h2⟩ := foldl_setReg (fun r => s.readAt r.val) (regRange x) s
  refine ⟨((regRange x).foldl (fun u r => u.setReg r (s.readAt r.val)) s).v, ?_, ?_⟩
  · simp only [exec, execLoadRegs]; rw [h1]
  · intro r; rw [← h1, h2]; simp only [mem_regRange]

/-! ## A stored byte in a fetched word -/

/-- A fetch at `p` has the byte at offset `k` from `base` as its high byte when `p` is that address, and as its low byte when
`p + 1` is. -/
theorem State.fetchWord_at (t : State) (p base : Word) (k : Nat) :
    (p.toNat % 4096 = (base.toNat + k) % 4096 →
      ({ t with pc := p } : State).fetchWord.toNat / 256 = (t.read (offsetAddr base k)).toNat) ∧
    ((p.toNat + 1) % 4096 = (base.toNat + k) % 4096 →
      ({ t with pc := p } : State).fetchWord.toNat % 256 = (t.read (offsetAddr base k)).toNat) := by
  have hw := State.fetchWord_toNat { t with pc := p }
  have e0 : p.toNat % 4096 = (base.toNat + k) % 4096 → toAddr p = offsetAddr base k := by
    intro h; apply BitVec.eq_of_toNat_eq; rw [State.toAddr_toNat, State.offsetAddr_toNat, h]
  have e1 : (p.toNat + 1) % 4096 = (base.toNat + k) % 4096 → toAddr (p + 1) = offsetAddr base k := by
    intro h; apply BitVec.eq_of_toNat_eq
    rw [State.toAddr_toNat, State.offsetAddr_toNat, ← h, BitVec.toNat_add]
    have : (1 : Word).toNat = 1 := rfl
    omega
  have hl : ∀ a, (t.read a).toNat < 256 := fun a => (t.read a).isLt
  have l0 := hl (toAddr (p + 1))
  have l1 := hl (offsetAddr base k)
  refine ⟨fun h => ?_, fun h => ?_⟩
  · rw [hw]; show ((t.read (toAddr p)).toNat * 256 + (t.read (toAddr (p + 1))).toNat) / 256 = _
    rw [e0 h]; omega
  · rw [hw]; show ((t.read (toAddr p)).toNat * 256 + (t.read (toAddr (p + 1))).toNat) % 256 = _
    rw [e1 h]; omega

/-! ## What a store and a load do not read -/

theorem memWriteFrom_st_faults (base : Word) (k : Nat) (bs : List Byte) (s : State) (as : List Addr) (b : Byte)
    (fs : List FaultReport) :
    memWriteFrom base k bs ({ s with st := b, faults := fs }, as) =
      ({ (memWriteFrom base k bs (s, as)).1 with st := b, faults := fs }, (memWriteFrom base k bs (s, as)).2) := by
  induction bs generalizing k s as with
  | nil => rfl
  | cons c rest ih =>
    rw [memWriteFrom, memWriteFrom, memWrite, memWrite]
    split
    · exact ih (k + 1) s _
    · exact ih (k + 1) (s.setByte _ c) _

theorem foldl_setReg_st_faults (f : RegId → Byte) (rs : List RegId) (s : State) (b : Byte) (fs : List FaultReport) :
    rs.foldl (fun u r => u.setReg r (f r)) { s with st := b, faults := fs } =
      { rs.foldl (fun u r => u.setReg r (f r)) s with st := b, faults := fs } := by
  induction rs generalizing s with
  | nil => rfl
  | cons r rest ih => exact ih (s.setReg r (f r))

/-! ## Outside events that load no program -/

theorem hostEvents_mem_of_no_load (es : List HostEvent) (s : State) (h : ∀ b, HostEvent.load b ∉ es) :
    (s.hostEvents es).mem = s.mem := by
  induction es generalizing s with
  | nil => rfl
  | cons e rest ih =>
    refine (ih (s.hostEvent e) (fun b hb => h b (List.mem_cons_of_mem _ hb))).trans ?_
    cases e with
    | load b => exact absurd List.mem_cons_self (h b)
    | tick => rfl
    | setKey e => rfl

theorem countDown_toNat : ∀ b : Byte, (countDown b).toNat = b.toNat - 1 := by decide

end Sys2Proof.Machine
end

