-- ==== Sys2Proof/Laws/PerInstr.lean ====
section
/-! SUPPORT. Statements about every instruction as syntax, one lemma per constructor. -/

namespace Sys2Proof.Laws

/-! ## Masks of the opcode table -/

theorem append_and {m n : Nat} (a c : BitVec m) (b d : BitVec n) : (a ++ b) &&& (c ++ d) = (a &&& c) ++ (b &&& d) := by
  ext i hi
  simp only [BitVec.getElem_and, BitVec.getElem_append]
  split <;> simp

theorem packA_masked (f : BitVec 4) (nnn : Addr) : packA f nnn &&& 0xF000#16 = packA f 0 := by
  show (f ++ nnn) &&& (0xF#4 ++ 0x000#12) = f ++ 0x000#12
  rw [append_and, BitVec.and_zero, show f &&& 0xF#4 = f from BitVec.and_allOnes]

theorem packRI_eq_packA (f : BitVec 4) (x : RegId) (nn : Byte) : packRI f x nn = packA f (regBits x ++ nn : BitVec (4 + 8)) := by
  apply BitVec.eq_of_toNat_eq
  rw [packRI_toNat, packA_toNat]
  have : (regBits x ++ nn).toNat = x.val * 256 + nn.toNat := by
    rw [append_toNat, regBits_toNat]; omega
  rw [this]; omega

theorem packRR_eq_packA (f : BitVec 4) (x y : RegId) (n : BitVec 4) :
    packRR f x y n = packA f ((regBits x ++ regBits y) ++ n : BitVec (4 + 4 + 4)) := by
  apply BitVec.eq_of_toNat_eq
  rw [packRR_toNat, packA_toNat]
  have : ((regBits x ++ regBits y) ++ n).toNat = x.val * 256 + y.val * 16 + n.toNat := by
    simp only [append_toNat, regBits_toNat]; omega
  rw [this]; omega

theorem packRI_masked_family (f : BitVec 4) (x : RegId) (nn : Byte) : packRI f x nn &&& 0xF000#16 = packA f 0 := by
  rw [packRI_eq_packA, packA_masked]

theorem packRR_masked_family (f : BitVec 4) (x y : RegId) (n : BitVec 4) :
    packRR f x y n &&& 0xF000#16 = packA f 0 := by
  rw [packRR_eq_packA, packA_masked]

theorem packRR_masked (f : BitVec 4) (x y : RegId) (n : BitVec 4) :
    packRR f x y n &&& 0xF00F#16 = packRR f 0 0 n := by
  show (((f ++ regBits x) ++ regBits y) ++ n) &&& (((0xF#4 ++ 0#4) ++ 0#4) ++ 0xF#4) = (((f ++ 0#4) ++ 0#4) ++ n)
  rw [append_and, append_and, append_and, BitVec.and_zero, BitVec.and_zero,
    show f &&& 0xF#4 = f from BitVec.and_allOnes, show n &&& 0xF#4 = n from BitVec.and_allOnes]

theorem packRI_masked (f : BitVec 4) (x : RegId) (nn : Byte) : packRI f x nn &&& 0xF0FF#16 = packRI f 0 nn := by
  show ((f ++ regBits x) ++ nn) &&& ((0xF#4 ++ 0#4) ++ 0xFF#8) = ((f ++ 0#4) ++ nn)
  rw [append_and, append_and, BitVec.and_zero,
    show f &&& 0xF#4 = f from BitVec.and_allOnes, show nn &&& 0xFF#8 = nn from BitVec.and_allOnes]

namespace RowMatch

/-- The word of an instruction matches its row of spec/opcode_table.json (R106). -/
def Statement (i : Instr) : Prop := i.row.matches (encode i) = true

theorem of_eq {i : Instr} (h : encode i &&& i.row.mask = i.row.pattern) : Statement i := by
  simp only [Statement, OpcodeRow.matches, h, beq_self_eq_true]

theorem cls : Statement .cls := rfl
theorem ret : Statement .ret := rfl
theorem jp (nnn : Addr) : Statement (.jp nnn) := of_eq (packA_masked 1 nnn)
theorem call (nnn : Addr) : Statement (.call nnn) := of_eq (packA_masked 2 nnn)
theorem seImm (x : RegId) (nn : Byte) : Statement (.seImm x nn) := of_eq (packRI_masked_family 3 x nn)
theorem sneImm (x : RegId) (nn : Byte) : Statement (.sneImm x nn) := of_eq (packRI_masked_family 4 x nn)
theorem seReg (x y : RegId) : Statement (.seReg x y) := of_eq (packRR_masked 5 x y 0)
theorem ldImm (x : RegId) (nn : Byte) : Statement (.ldImm x nn) := of_eq (packRI_masked_family 6 x nn)
theorem addImm (x : RegId) (nn : Byte) : Statement (.addImm x nn) := of_eq (packRI_masked_family 7 x nn)
theorem ldReg (x y : RegId) : Statement (.ldReg x y) := of_eq (packRR_masked 8 x y 0)
theorem orReg (x y : RegId) : Statement (.orReg x y) := of_eq (packRR_masked 8 x y 1)
theorem andReg (x y : RegId) : Statement (.andReg x y) := of_eq (packRR_masked 8 x y 2)
theorem xorReg (x y : RegId) : Statement (.xorReg x y) := of_eq (packRR_masked 8 x y 3)
theorem addReg (x y : RegId) : Statement (.addReg x y) := of_eq (packRR_masked 8 x y 4)
theorem subReg (x y : RegId) : Statement (.subReg x y) := of_eq (packRR_masked 8 x y 5)
theorem shr (x y : RegId) : Statement (.shr x y) := of_eq (packRR_masked 8 x y 6)
theorem subnReg (x y : RegId) : Statement (.subnReg x y) := of_eq (packRR_masked 8 x y 7)
theorem shl (x y : RegId) : Statement (.shl x y) := of_eq (packRR_masked 8 x y 0xE)
theorem sneReg (x y : RegId) : Statement (.sneReg x y) := of_eq (packRR_masked 9 x y 0)
theorem ldI (nnn : Addr) : Statement (.ldI nnn) := of_eq (packA_masked 0xA nnn)
theorem jpV0 (nnn : Addr) : Statement (.jpV0 nnn) := of_eq (packA_masked 0xB nnn)
theorem rnd (x : RegId) (nn : Byte) : Statement (.rnd x nn) := of_eq (packRI_masked_family 0xC x nn)
theorem drw (x y : RegId) (n : Nat) : Statement (.drw x y n) := of_eq (packRR_masked_family 0xD x y (BitVec.ofNat 4 n))
theorem skp (x : RegId) : Statement (.skp x) := of_eq (packRI_masked 0xE x 0x9E)
theorem sknp (x : RegId) : Statement (.sknp x) := of_eq (packRI_masked 0xE x 0xA1)
theorem ldVxDt (x : RegId) : Statement (.ldVxDt x) := of_eq (packRI_masked 0xF x 0x07)
theorem ldVxK (x : RegId) : Statement (.ldVxK x) := of_eq (packRI_masked 0xF x 0x0A)
theorem ldDtVx (x : RegId) : Statement (.ldDtVx x) := of_eq (packRI_masked 0xF x 0x15)
theorem ldStVx (x : RegId) : Statement (.ldStVx x) := of_eq (packRI_masked 0xF x 0x18)
theorem addI (x : RegId) : Statement (.addI x) := of_eq (packRI_masked 0xF x 0x1E)
theorem ldF (x : RegId) : Statement (.ldF x) := of_eq (packRI_masked 0xF x 0x29)
theorem ldB (x : RegId) : Statement (.ldB x) := of_eq (packRI_masked 0xF x 0x33)
theorem storeRegs (x : RegId) : Statement (.storeRegs x) := of_eq (packRI_masked 0xF x 0x55)
theorem loadRegs (x : RegId) : Statement (.loadRegs x) := of_eq (packRI_masked 0xF x 0x65)

end RowMatch

end Sys2Proof.Laws
end

