-- ==== Sys2Proof/Tests/Slice0.lean ====
section
/-! SUPPORT. The model's own tests. Every expected value comes from spec/95_test_vectors.md or from the encodings of
spec/30_encoding.md R105; the row of the vector stands in each docstring. The last part has one witness for the hypotheses of
every obligation that has any. -/

namespace Sys2Proof.Tests

open Sys2Proof Sys2Proof.Machine

/-! ## Well-formedness -/

/-- The one check of WellFormed: a sprite height is a 4-bit field. -/
theorem test_wf_refuses_height_16 : (Instr.drw 0 0 16).wf = false ∧ (Instr.drw 0 0 15).wf = true := by decide

/-! ## Decoding: a word of every constructor, nibble by nibble from R105 -/

/-- A word by its four nibbles, the family first (R11). -/
def nibbles (f x y n : BitVec 4) : Word := f ++ x ++ y ++ n

theorem test_decode_family_0 :
    decodeWord (nibbles 0b0000 0b0000 0b1110 0b0000) = .insn .cls ∧
    decodeWord (nibbles 0b0000 0b0000 0b1110 0b1110) = .insn .ret := by decide

theorem test_decode_addresses :
    decodeWord (nibbles 0b0001 0b0010 0b0011 0b0100) = .insn (.jp 0x234) ∧
    decodeWord (nibbles 0b0010 0b1010 0b1011 0b1100) = .insn (.call 0xABC) ∧
    decodeWord (nibbles 0b1010 0b0010 0b1111 0b0000) = .insn (.ldI 0x2F0) ∧
    decodeWord (nibbles 0b1011 0b0011 0b0000 0b0001) = .insn (.jpV0 0x301) := by decide

theorem test_decode_immediates :
    decodeWord (nibbles 0b0011 0b0011 0b0100 0b0010) = .insn (.seImm 3 0x42) ∧
    decodeWord (nibbles 0b0100 0b1001 0b0100 0b0011) = .insn (.sneImm 9 0x43) ∧
    decodeWord (nibbles 0b0110 0b1111 0b1010 0b0001) = .insn (.ldImm 15 0xA1) ∧
    decodeWord (nibbles 0b0111 0b0101 0b0000 0b0011) = .insn (.addImm 5 0x03) ∧
    decodeWord (nibbles 0b1100 0b0101 0b0000 0b1111) = .insn (.rnd 5 0x0F) := by decide

theorem test_decode_register_skips :
    decodeWord (nibbles 0b0101 0b0001 0b0010 0b0000) = .insn (.seReg 1 2) ∧
    decodeWord (nibbles 0b1001 0b0001 0b0010 0b0000) = .insn (.sneReg 1 2) := by decide

theorem test_decode_family_8 :
    decodeWord (nibbles 0b1000 0b0001 0b0010 0b0000) = .insn (.ldReg 1 2) ∧
    decodeWord (nibbles 0b1000 0b0001 0b0010 0b0001) = .insn (.orReg 1 2) ∧
    decodeWord (nibbles 0b1000 0b0001 0b0010 0b0010) = .insn (.andReg 1 2) ∧
    decodeWord (nibbles 0b1000 0b0001 0b0010 0b0011) = .insn (.xorReg 1 2) ∧
    decodeWord (nibbles 0b1000 0b0001 0b0010 0b0100) = .insn (.addReg 1 2) ∧
    decodeWord (nibbles 0b1000 0b0001 0b0010 0b0101) = .insn (.subReg 1 2) ∧
    decodeWord (nibbles 0b1000 0b0001 0b0010 0b0110) = .insn (.shr 1 2) ∧
    decodeWord (nibbles 0b1000 0b0001 0b0010 0b0111) = .insn (.subnReg 1 2) ∧
    decodeWord (nibbles 0b1000 0b0001 0b0010 0b1110) = .insn (.shl 1 2) := by decide

theorem test_decode_sprite :
    decodeWord (nibbles 0b1101 0b1010 0b0101 0b1111) = .insn (.drw 10 5 15) := by decide

theorem test_decode_keys :
    decodeWord (nibbles 0b1110 0b0010 0b1001 0b1110) = .insn (.skp 2) ∧
    decodeWord (nibbles 0b1110 0b0010 0b1010 0b0001) = .insn (.sknp 2) := by decide

theorem test_decode_family_F :
    decodeWord (nibbles 0b1111 0b0011 0b0000 0b0111) = .insn (.ldVxDt 3) ∧
    decodeWord (nibbles 0b1111 0b0011 0b0000 0b1010) = .insn (.ldVxK 3) ∧
    decodeWord (nibbles 0b1111 0b0011 0b0001 0b0101) = .insn (.ldDtVx 3) ∧
    decodeWord (nibbles 0b1111 0b0011 0b0001 0b1000) = .insn (.ldStVx 3) ∧
    decodeWord (nibbles 0b1111 0b0011 0b0001 0b1110) = .insn (.addI 3) ∧
    decodeWord (nibbles 0b1111 0b0011 0b0010 0b1001) = .insn (.ldF 3) ∧
    decodeWord (nibbles 0b1111 0b0011 0b0011 0b0011) = .insn (.ldB 3) ∧
    decodeWord (nibbles 0b1111 0b0011 0b0101 0b0101) = .insn (.storeRegs 3) ∧
    decodeWord (nibbles 0b1111 0b0011 0b0110 0b0101) = .insn (.loadRegs 3) := by decide

/-- V3 to V13. -/
theorem test_decode_faults :
    decodeWord 0x0000 = .decodeFault ∧ decodeWord 0x00E1 = .decodeFault ∧ decodeWord 0x0123 = .decodeFault ∧
    decodeWord 0x5121 = .decodeFault ∧ decodeWord 0x9121 = .decodeFault ∧ decodeWord 0x8008 = .selectorFault ∧
    decodeWord 0x812F = .selectorFault ∧ decodeWord 0xE000 = .decodeFault ∧ decodeWord 0xE19F = .decodeFault ∧
    decodeWord 0xF0FF = .decodeFault ∧ decodeWord 0xF000 = .decodeFault := by decide

/-- R73: the byte at the lower address is the high one, and what follows the word is left. -/
theorem test_decode_bytes :
    decodeBytes [0x61, 0x05, 0x99] = .ok (.ldImm 1 0x05, [0x99]) ∧ decodeBytes [0x61] = .error .truncated ∧
    decodeTableWord 16 0x8FE6 = some (.shr 15 14) ∧ encodeBytes (.ldI 0x2F0) = [0xA2, 0xF0] := by
  refine ⟨rfl, rfl, by decide, by decide⟩

/-! ## One step on a small state -/

/-- The state after one step. -/
def after (s : State) : State :=
  match step s with
  | .next t => t
  | .fault _ | .refused _ => s

/-- The state after one step that fetches `w`. -/
def run (w : Nat) (s : State) : State := after (s.withFetchWord 16 w)

/-- The reset state with V1 and V2 as given. -/
def with12 (a b : Byte) : State := (State.reset.setReg 1 a).setReg 2 b

/-- The reset state with V1, V2 and VF as given. -/
def with12F (a b f : Byte) : State := (with12 a b).setReg VF f

/-- The reset state with a program counter, an index and V0. -/
def withPcI0 (pc index : Word) (b : Byte) : State := { State.reset.setReg 0 b with pc := pc, index := index }

/-- The reset state with latches down. -/
def withKeys (ks : List Int) : State := State.reset.hostEvents (ks.map (fun k => .setKey ⟨k, true⟩))

/-- The reset state with a frame on the stack. -/
def withFrame (pc : Word) (sp : Fin 17) (slot : Fin 16) (a : Word) : State :=
  { State.reset with pc := pc, sp := sp, stack := State.reset.stack.set slot.val a }

/-- V2: the fetch at 0xFFF takes its second byte from 0x000, and the recovery wraps. -/
theorem test_fetch_wraps :
    let s : State := { State.reset with pc := 0xFFF }
    s.fetchWord = 0x00F0 ∧ after s = { s with pc := 0x001, faults := [⟨.decode, 0xFFF, 0x00F0⟩] } := by decide

/-- V3, L2: from reset with nothing loaded the first step reports a decode fault. -/
theorem test_step_from_reset :
    after State.reset = { State.reset with pc := 0x202, faults := [⟨.decode, 0x200, 0x0000⟩] } := by decide

/-- A18. -/
theorem test_selector_fault :
    let t := run 0x8129 (with12F 0x12 0 0x34)
    t.faults = [⟨.arithSelector, 0x200, 0x8129⟩] ∧ t.reg 1 = 0x12 ∧ t.reg VF = 0x34 ∧ t.pc = 0x202 := by decide

/-- C1. -/
theorem test_cls :
    let s := run 0xD011 { State.reset with index := 0x000 }
    s.pixel 0 3 = true ∧ (run 0x00E0 s).pixel 0 3 = false ∧ (run 0x00E0 s).fb = State.reset.fb := by decide

/-- C4: the popped address plus 2, wrapped. -/
theorem test_ret_wraps : let t := run 0x00EE (withFrame 0x300 1 0 0xFFE); t.sp = 0 ∧ t.pc = 0x000 := by decide

/-- C3. -/
theorem test_ret_underflow :
    let t := run 0x00EE { State.reset with pc := 0x300 }
    t.faults = [⟨.stackDiscipline .underflow, 0x300, 0x00EE⟩] ∧ t.sp = 0 ∧ t.pc = 0x302 := by decide

/-- C6. -/
theorem test_jp : (run 0x1FFF State.reset).pc = 0xFFF := by decide

/-- C8: the sixteenth frame succeeds. -/
theorem test_call_last_slot :
    let t := run 0x2300 { State.reset with pc := 0x500, sp := 15 }
    t.stack[15] = 0x500 ∧ t.sp = 16 ∧ t.pc = 0x300 ∧ t.faults = [] := by decide

/-- C9. -/
theorem test_call_overflow :
    let t := run 0x2300 { State.reset with pc := 0x400, sp := 16 }
    t.faults = [⟨.stackDiscipline .overflow, 0x400, 0x2300⟩] ∧ t.sp = 16 ∧ t.stack = State.reset.stack ∧ t.pc = 0x402 := by
  decide

/-- C11, C12: no skip; a skip that wraps. -/
theorem test_se_imm :
    (run 0x3343 (State.reset.setReg 3 0x42)).pc = 0x202 ∧ (run 0x3000 { State.reset with pc := 0xFFE }).pc = 0x002 := by
  decide

/-- C13, C14. -/
theorem test_sne_imm :
    (run 0x4342 (State.reset.setReg 3 0x42)).pc = 0x202 ∧ (run 0x4300 (State.reset.setReg 3 0x42)).pc = 0x204 := by decide

/-- C15, C16. -/
theorem test_se_reg : (run 0x5120 (with12 7 7)).pc = 0x204 ∧ (run 0x5120 (with12 7 8)).pc = 0x202 := by decide

/-- C17, C18. -/
theorem test_sne_reg : (run 0x9120 (with12 7 8)).pc = 0x204 ∧ (run 0x9120 (with12 7 7)).pc = 0x202 := by decide

/-- C20. -/
theorem test_ld_imm : (run 0x6FAA State.reset).reg VF = 0xAA := by decide

/-- C21: the sum wraps and VF stays. -/
theorem test_add_imm :
    let t := run 0x7001 ((State.reset.setReg 0 0xFF).setReg VF 0x5A)
    t.reg 0 = 0x00 ∧ t.reg VF = 0x5A := by decide

/-- C23. -/
theorem test_ld_i : (run 0xAFFF State.reset).index = 0xFFF := by decide

/-- C25: the sum wraps. -/
theorem test_jp_v0 : (run 0xBFFF (State.reset.setReg 0 0xFF)).pc = 0x0FE := by decide

/-- C28: with the mask FF the destination is the drawn byte, whatever it is. -/
theorem test_rnd_whole : (run 0xCFFF State.reset).reg VF = Config.drawByte 0 := BitVec.and_allOnes

/-- C27: with the mask 00 any draw gives 0. -/
theorem test_rnd_none : (run 0xC500 State.reset).reg 5 = 0 := BitVec.and_zero

/-- A2: y = F reads VF. -/
theorem test_ld_reg : (run 0x81F0 (with12F 0 0 0x09)).reg 1 = 0x09 := by decide

/-- A3: VF is not reset. -/
theorem test_or : let t := run 0x8121 (with12F 0x0F 0xF0 0x01); t.reg 1 = 0xFF ∧ t.reg VF = 0x01 := by decide

/-- A4. -/
theorem test_and : (run 0x8122 (with12 0x3C 0x0F)).reg 1 = 0x0C := by decide

/-- A5, A6. -/
theorem test_xor : (run 0x8123 (with12 0xFF 0x0F)).reg 1 = 0xF0 ∧ (run 0x8113 (with12 0x5A 0)).reg 1 = 0 := by decide

/-- S1. -/
theorem test_add :
    let t := run 0x8124 (with12F 0x80 0x7F 9)
    t.reg 1 = 0xFF ∧ t.reg VF = 0 ∧ (run 0x8124 (with12 0xFF 0x01)).reg VF = 1 := by decide

/-- A8, A9: VF as destination and as operand. -/
theorem test_add_vf :
    (run 0x8F14 (with12F 0x20 0 0xF0)).reg VF = 1 ∧
    (run 0x81F4 (with12F 0xFF 0 0x01)).reg 1 = 0 ∧ (run 0x81F4 (with12F 0xFF 0 0x01)).reg VF = 1 := by decide

/-- S2, A11: equal operands give the flag 0. -/
theorem test_sub :
    (run 0x8125 (with12F 0x42 0x42 9)).reg VF = 0 ∧ (run 0x8125 (with12 0x10 0x01)).reg VF = 1 ∧
    (run 0x8125 (with12 0x01 0x10)).reg 1 = 0xF1 := by decide

/-- A12: the y nibble is not read. -/
theorem test_shr : let t := run 0x81F6 (with12F 0x7F 0 0x80); t.reg 1 = 0x3F ∧ t.reg VF = 1 := by decide

/-- A14: with x = F the flag stays. -/
theorem test_shr_vf : (run 0x8F06 (with12F 0 0 0x02)).reg VF = 0 := by decide

/-- S2, A15. -/
theorem test_subn :
    (run 0x8127 (with12 0x01 0x10)).reg 1 = 0x0F ∧ (run 0x8127 (with12 0x01 0x10)).reg VF = 1 ∧
    (run 0x8127 (with12 0x10 0x01)).reg 1 = 0xF1 ∧ (run 0x8127 (with12F 0x42 0x42 9)).reg VF = 0 := by decide

/-- A16. -/
theorem test_shl : let t := run 0x812E (with12 0xFF 0); t.reg 1 = 0xFE ∧ t.reg VF = 1 := by decide

/-- A17. -/
theorem test_shl_vf : (run 0x8FFE (with12F 0 0 0x80)).reg VF = 1 := by decide

/-- D3: columns wrap; the highest bit is the leftmost pixel. -/
theorem test_drw_wraps :
    let s := (State.reset.setReg 0 60).setByte 0x300 0xF1
    let t := run 0xD011 { s with index := 0x300 }
    t.pixel 0 60 = true ∧ t.pixel 0 63 = true ∧ t.pixel 0 0 = false ∧ t.pixel 0 3 = true ∧ t.reg VF = 0 := by decide

/-- D11, D12: the origin may be VF, read before it is reset; the second row's byte comes from 0x000. -/
theorem test_drw_origin_vf :
    let s := (State.reset.setReg VF 5).setByte 0xFFF 0x80
    let t := run 0xDF12 { s with index := 0xFFF }
    t.pixel 0 5 = true ∧ t.pixel 0 6 = false ∧ t.pixel 1 8 = true ∧ t.pixel 1 9 = false ∧ t.reg VF = 0 := by decide

/-- T1. -/
theorem test_ld_vx_dt : (run 0xF307 { State.reset with dt := 0x3C }).reg 3 = 0x3C := by decide

/-- T2. -/
theorem test_ld_dt_vx : (run 0xF315 (State.reset.setReg 3 0x3C)).dt = 0x3C := by decide

/-- T3. -/
theorem test_ld_st_vx : let t := run 0xF318 (State.reset.setReg 3 0x02); t.st = 2 ∧ t.soundOn = true := by decide

/-- M3, M4. -/
theorem test_add_i :
    let t := run 0xF21E { with12F 0 0xFF 9 with index := 0xF00 }
    let u := run 0xFF1E { with12F 0 0 2 with index := 0xFFF }
    t.index = 0xFFF ∧ t.reg VF = 0 ∧ u.index = 0x001 ∧ u.reg VF = 1 := by decide

/-- M8: the whole register value, not its low nibble. -/
theorem test_ld_f : (run 0xF129 (with12 0xFF 0)).index = 0x4FB := by decide

/-- M9. -/
theorem test_ld_b :
    let t := run 0xF033 (withPcI0 0x200 0x300 156)
    t.read 0x300 = 1 ∧ t.read 0x301 = 5 ∧ t.read 0x302 = 6 ∧ t.index = 0x300 ∧ t.faults = [] := by decide

/-- M12: the third address wraps into the reserved region. -/
theorem test_ld_b_reserved :
    let t := run 0xF033 (withPcI0 0x200 0xFFE 123)
    t.read 0xFFE = 1 ∧ t.read 0xFFF = 2 ∧ t.read 0x000 = 0xF0 ∧
      t.faults = [⟨.reservedWrite [0x000], 0x200, 0xF033⟩] ∧ t.pc = 0x202 := by decide

/-- M14. -/
theorem test_store_regs :
    let t := run 0xF255 { with12 2 3 with index := 0x300 }
    t.read 0x300 = 0 ∧ t.read 0x301 = 2 ∧ t.read 0x302 = 3 ∧ t.read 0x303 = 0 ∧ t.index = 0x303 := by decide

/-- M16, with V0 to VF all 0 but V7. -/
theorem test_store_regs_reserved :
    let t := run 0xFF55 { State.reset.setReg 7 7 with index := 0xFF8 }
    t.read 0xFFF = 7 ∧ t.index = 0x008 ∧
      t.faults = [⟨.reservedWrite [0, 1, 2, 3, 4, 5, 6, 7], 0x200, 0xFF55⟩] := by decide

/-- M18: the font is there at reset, and reads are allowed everywhere. -/
theorem test_load_regs :
    let t := run 0xFF65 State.reset
    t.v.toList = [0xF0, 0x90, 0x90, 0x90, 0xF0, 0x20, 0x60, 0x20] ++ [0x20, 0x70, 0xF0, 0x10, 0xF0, 0x80, 0xF0, 0xF0] ∧
      t.index = 0x010 ∧ t.faults = [] := by decide

/-- M19: the addresses wrap, and V2 is not written. -/
theorem test_load_regs_wraps :
    let s := (State.reset.setReg 2 0x55).setByte 0xFFF 0x11
    let t := run 0xF165 { s with index := 0xFFF }
    t.reg 0 = 0x11 ∧ t.reg 1 = 0xF0 ∧ t.reg 2 = 0x55 ∧ t.index = 0x001 := by decide

/-- K1: with no key nothing changes. -/
theorem test_key_wait_stays :
    let s := State.reset.withFetchWord 16 0xF30A
    after s = s := by decide

/-- K3: the lowest index wins. -/
theorem test_key_wait_takes : let t := run 0xF50A (withKeys [9, 3]); t.reg 5 = 3 ∧ t.pc = 0x202 := by decide

/-- K6, K10: the low nibble of the register names the key. -/
theorem test_skp :
    (run 0xE29E ((withKeys [7]).setReg 2 0x17)).pc = 0x204 ∧ (run 0xE29E (State.reset.setReg 2 5)).pc = 0x202 := by decide

/-- K8, K9. -/
theorem test_sknp :
    (run 0xE2A1 ((withKeys [5]).setReg 2 5)).pc = 0x202 ∧ (run 0xE2A1 (State.reset.setReg 2 5)).pc = 0x204 := by decide

/-! ## The ports and the agenda -/

/-- T4, T5. -/
theorem test_tick :
    let t := ({ State.reset with dt := 2, st := 1 } : State).tick
    t.dt = 1 ∧ t.st = 0 ∧ t.soundOn = false ∧ t.tick.st = 0 := by decide

/-- L3. -/
theorem test_load :
    let t := (withPcI0 0x2A0 0 9).hostEvent (.load [0xA1, 0xB2])
    t.read 0x200 = 0xA1 ∧ t.read 0x201 = 0xB2 ∧ t.read 0x202 = 0 ∧ t.reg 0 = 9 ∧ t.pc = 0x2A0 := by decide

/-- R85, D20: key 4 goes down after latch 4 was read, so this scan misses it; it has landed when the step ends. -/
theorem test_key_lands_behind_the_scan :
    let s : State := { State.reset.withFetchWord 16 0xF00A with
      agenda := [⟨[.tick], List.replicate 5 [] ++ [[⟨4, true⟩]]⟩] }
    let t := after s
    t.pc = 0x200 ∧ t.key[4] = true ∧ t.agenda = [] := by decide

/-! ## Witnesses for the hypotheses of the obligations -/

/-- ResetLeavesEveryFieldAtItsValue; the clause on the rest of memory holds from 80 to 4095. -/
theorem witness_reset_with :
    (∃ (font : Vector Byte 80) (s : State), s = State.resetWith font (Vector.replicate 4016 0)) ∧
    80 ≤ (80 : Addr).toNat ∧ 80 ≤ (4095 : Addr).toNat :=
  ⟨⟨Vector.replicate 80 0, _, rfl⟩, by decide, by decide⟩

theorem witness_default_font : ∃ font : Vector Byte 80, font.toList = defaultFont :=
  ⟨⟨defaultFont.toArray, by decide⟩, rfl⟩

/-- EveryStepKeepsTheInvariant: a state at another pc than reset's, with a listed byte. -/
theorem witness_invariant : ∃ s t, MachineInv s ∧ step s = .next t :=
  ⟨{ State.reset with pc := 0x300, mem := [(0x300, 1)] }, _,
    ⟨by decide, by decide, by decide, by decide, List.forall_mem_nil _⟩, rfl⟩

theorem witness_decode_of_encode : (Instr.drw 15 15 15).wf = true ∧ (Instr.jp 0xFFF).wf = true := by decide

theorem witness_encode_of_decode : ∃ w i, decodeWord w = .insn i := ⟨0x8FE6, .shr 15 14, by decide⟩

theorem witness_decoder_agrees :
    (decodeWord 0xFF65 = .insn (.loadRegs 15)) ∧ (Instr.loadRegs 0).row.matches 0xFF65 = true := by decide

/-- WordThatMatchesNoRowIsReportedAndPassed: a word of family 0 and a word of family 8. -/
theorem witness_unmatched :
    (∃ s : State, (∀ i : Instr, i.row.matches s.fetchWord = false) ∧ s.fetchWord.toNat / 4096 ≠ 8) ∧
    (∃ s : State, (∀ i : Instr, i.row.matches s.fetchWord = false) ∧ s.fetchWord.toNat / 4096 = 8) := by
  have h0 : State.reset.fetchWord = 0x0000 := by decide
  have h8 : (State.reset.withFetchWord 16 0x812F).fetchWord = 0x812F := by decide
  refine ⟨⟨State.reset, fun i => ?_, by decide⟩, ⟨State.reset.withFetchWord 16 0x812F, fun i => ?_, by decide⟩⟩
  · rw [h0]; cases i <;> simp [Instr.row, OpcodeRow.matches]
  · rw [h8]; cases i <;> simp [Instr.row, OpcodeRow.matches]

/-- UndefinedWordsOfEachFamilyAreReported: a word of every family it names; the selectors at the ends of family 8's gaps. -/
theorem witness_undefined_words :
    [0x0000, 0x00E1, 0x0FFF, 0x5121, 0x912F, 0xE000, 0xE19F, 0xF000, 0xF0FF].all
      (fun w => (State.reset.withFetchWord 16 w).fetchWord.toNat == w) = true ∧
    [0x8008, 0x812D, 0x8FFF].all (fun w => (State.reset.withFetchWord 16 w).fetchWord.toNat == w) = true := by decide

/-- NoInstructionReadsSoundTimerOrFaultLog: the instruction that writes ST, and one that does not and reports. -/
theorem witness_sound_timer :
    (∃ s t, exec (.ldStVx 1) s = .next t) ∧ (∃ s t, exec .ret s = .next t ∧ t.faults ≠ s.faults) :=
  ⟨⟨with12 9 0, _, rfl⟩, ⟨State.reset, _, rfl, by decide⟩⟩

theorem witness_random : ∃ s t, exec (.rnd 5 0x0F) s = .next t := ⟨State.reset, _, rfl⟩

theorem witness_fetch_at_the_top : ∃ s : State, s.pc = 0xFFF := ⟨{ State.reset with pc := 0xFFF }, rfl⟩

/-- StepRunsTheDecodedInstruction: with outside events in the slot, and with none. -/
theorem witness_step_runs :
    (∃ (s : State) (i : Instr) (t : State), s.agenda ≠ [] ∧ decodeWord s.beginStep.fetchWord = .insn i ∧ exec i s.beginStep = .next t) ∧
    (∃ (s : State) (i : Instr) (t : State), s.agenda = [] ∧ decodeWord s.fetchWord = .insn i ∧ exec i s = .next t) :=
  ⟨⟨{ State.reset.withFetchWord 16 0x6005 with agenda := [⟨[.tick], [[⟨4, true⟩]]⟩] }, .ldImm 0 5, _, by decide, by decide,
      rfl⟩,
    ⟨State.reset.withFetchWord 16 0x6005, .ldImm 0 5, _, rfl, by decide, rfl⟩⟩

theorem witness_events_first : ∃ (s : State) (slot : Slot) (rest : List Slot), s.agenda = slot :: rest :=
  ⟨{ State.reset with agenda := [⟨[.tick], []⟩] }, _, _, rfl⟩

/-- ReservedRegionIsNeverOverwritten, StepRaisesAtMostOneReport: a step that tries to store below 0x200. -/
theorem witness_step_below_the_program :
    ∃ s t, step s = .next t ∧ (0x1FF : Addr).toNat < 0x200 ∧ t.faults ≠ s.faults :=
  ⟨(withPcI0 0x300 0x1FF 9).withFetchWord 16 0xF055, _, rfl, by decide, by decide⟩

/-- FaultKindsComeOnlyFromTheirInstructions: one instruction of each kind of report. -/
theorem witness_fault_kinds :
    (∃ s t, exec .ret s = .next t ∧ t.faults ≠ s.faults) ∧
    (∃ s t, exec (.call 0x300) s = .next t ∧ t.faults ≠ s.faults) ∧
    (∃ s t, exec (.storeRegs 0) s = .next t ∧ t.faults ≠ s.faults) ∧
    (∃ s t, exec (.ldB 0) s = .next t ∧ t.faults ≠ s.faults) :=
  ⟨⟨State.reset, _, rfl, by decide⟩, ⟨{ State.reset with sp := 16 }, _, rfl, by decide⟩,
    ⟨State.reset, _, rfl, by decide⟩, ⟨State.reset, _, rfl, by decide⟩⟩

/-- OnlyFlagWritersChangeVF: as a flag, and as the named destination. -/
theorem witness_flag_writers :
    (∃ s t, exec (.addReg 1 2) s = .next t ∧ t.reg VF ≠ s.reg VF) ∧
    (∃ s t, exec (.loadRegs 15) s = .next t ∧ t.reg VF ≠ s.reg VF) :=
  ⟨⟨with12 0xFF 1, _, rfl, by decide⟩, ⟨State.reset, _, rfl, by decide⟩⟩

/-- EachPartHasOnlyItsWriters: every part of it that an instruction writes is changed by one. -/
theorem witness_parts :
    (∃ i s t, exec i s = .next t ∧ t.sp ≠ s.sp ∧ t.stack ≠ s.stack) ∧
    (∃ i s t, exec i s = .next t ∧ t.index ≠ s.index ∧ t.mem ≠ s.mem) ∧
    (∃ i s t, exec i s = .next t ∧ t.dt ≠ s.dt) ∧ (∃ i s t, exec i s = .next t ∧ t.st ≠ s.st) ∧
    (∃ i s t, exec i s = .next t ∧ t.fb ≠ s.fb) ∧ (∃ i s t, exec i s = .next t ∧ t.draws ≠ s.draws) :=
  ⟨⟨.call 0x300, State.reset, _, rfl, by decide, by decide⟩,
    ⟨.storeRegs 0, withPcI0 0x200 0x300 9, _, rfl, by decide, by decide⟩,
    ⟨.ldDtVx 1, with12 9 0, _, rfl, by decide⟩, ⟨.ldStVx 1, with12 9 0, _, rfl, by decide⟩,
    ⟨.drw 0 0 1, State.reset, _, rfl, by decide⟩, ⟨.rnd 0 0, State.reset, _, rfl, by decide⟩⟩

/-- ReturnPopsOrReportsUnderflow, CallPushesOrReportsOverflow: the clauses meet between SP = 0 and 1, and between 15 and 16. -/
theorem witness_stack_clauses :
    (∃ s : State, s.sp = 0 ∧ s.sp.val < 16) ∧ (∃ s : State, s.sp.val = 1 ∧ 0 < s.sp.val) ∧
    (∃ s : State, s.sp.val = 15 ∧ s.sp.val < 16) ∧ (∃ s : State, s.sp = 16 ∧ 0 < s.sp.val) :=
  ⟨⟨State.reset, by decide⟩, ⟨{ State.reset with sp := 1 }, by decide⟩, ⟨{ State.reset with sp := 15 }, by decide⟩,
    ⟨{ State.reset with sp := 16 }, by decide⟩⟩

theorem witness_return_undoes_call :
    ∃ nnn s t u, s.sp.val < 16 ∧ exec (.call nnn) s = .next t ∧ exec .ret t = .next u :=
  ⟨0x300, { State.reset with sp := 15 }, _, _, by decide, rfl, rfl⟩

/-- SkipComparesTwoRegisters: the nibbles that are decode faults, 1 to 15. -/
theorem witness_strict_nibble : (0 < 1 ∧ 1 < 16) ∧ (0 < 15 ∧ 15 < 16) := by decide

/-- AddSetsTheCarryFlag and its like: a destination other than VF. -/
theorem witness_not_vf : (14 : RegId) ≠ VF ∧ (0 : RegId) ≠ VF := by decide

/-- DrawTogglesWhatTheSpriteCovers: a height at its bound, a covered cell past the right edge, a cell not covered. -/
theorem witness_draw :
    (15 < 16) ∧
    (∃ s : State, SpriteCovers s 60 31 2 0 3) ∧ (∃ s : State, ¬SpriteCovers s 60 31 0 0 3) := by
  refine ⟨by decide, ⟨{ State.reset.setByte 0x301 0x01 with index := 0x300 }, ?_⟩, ⟨State.reset, ?_⟩⟩
  · exact ⟨1, 7, by decide⟩
  · rintro ⟨r, b, hr, -⟩
    exact absurd hr (Nat.not_lt_zero r)

theorem witness_draw_twice :
    ∃ (x y : RegId) (n : Nat) (s t u : State), n < 16 ∧ x ≠ VF ∧ y ≠ VF ∧
      exec (.drw x y n) s = .next t ∧ exec (.drw x y n) t = .next u :=
  ⟨0, 1, 5, State.reset, _, _, by decide, by decide, by decide, rfl, rfl⟩

/-- DecimalDigitsAreStoredAtTheIndex, StoreRangeCopiesRegistersToMemory: a store that is allowed at its first address and not at
its third, one that is not at its first and is at its second and third. -/
theorem witness_store_clauses :
    (isReserved (offsetAddr 0xFFE 0) = false ∧ isReserved (offsetAddr 0xFFE 2) = true) ∧
    (isReserved (offsetAddr 0x1FF 0) = true ∧ isReserved (offsetAddr 0x1FF 1) = false ∧
      isReserved (offsetAddr 0x1FF 2) = false) := by decide

/-- LoadRangeCopiesMemoryToRegisters: registers in the range and above it. -/
theorem witness_load_range : (3 : RegId) ≤ 3 ∧ (3 : RegId) < 4 := by decide

/-- Addresses that start at 0x200 or above and do not wrap are not reserved. -/
theorem storeAddrs_free (s : State) (n : Nat) (h0 : 0x200 ≤ s.index.toNat) (h1 : s.index.toNat + n ≤ 4096) :
    ∀ a ∈ storeAddrs s n, isReserved a = false := by
  intro a ha
  obtain ⟨k, hk, rfl⟩ := List.mem_map.mp ha
  have hk := List.mem_range.mp hk
  refine decide_eq_false ?_
  rw [State.offsetAddr_toNat]
  simp only [Config.progBase]
  omega

theorem witness_store_then_load :
    ∃ (x : RegId) (s t u : State) (junk : Vector Byte 16), (∀ a ∈ storeAddrs s (x.val + 1), isReserved a = false) ∧
      exec (.storeRegs x) s = .next t ∧ exec (.loadRegs x) { t with index := s.index, v := junk } = .next u :=
  ⟨15, { with12 1 2 with index := 0xFF0 }, _, _, Vector.replicate 16 0xEE, storeAddrs_free _ 16 (by decide) (by decide), rfl, rfl⟩

theorem witness_stored_word :
    ∃ s t : State, (∀ a ∈ storeAddrs s 2, isReserved a = false) ∧ exec (.storeRegs 1) s = .next t :=
  ⟨{ with12 0x34 0 with index := 0x300 }, _, storeAddrs_free _ 2 (by decide) (by decide), rfl⟩

/-- EveryStoredByteIsFetchedAtOnce: the last register of a range, at the last address of memory and fetched as the low byte; the
third digit, fetched as the high byte. -/
theorem witness_every_stored_byte :
    (∃ (s t : State) (p : Word), exec (.storeRegs 15) s = .next t ∧ isReserved (offsetAddr s.index 15) = false ∧
      (p.toNat + 1) % 4096 = (s.index.toNat + 15) % 4096) ∧
    (∃ (s t : State) (p : Word), exec (.ldB 0) s = .next t ∧ isReserved (offsetAddr s.index 2) = false ∧
      p.toNat % 4096 = (s.index.toNat + 2) % 4096) :=
  ⟨⟨{ with12 1 2 with index := 0xFF0 }, _, 0xFFE, rfl, by decide, by decide⟩,
    ⟨withPcI0 0x200 0x1FF 156, _, 0x201, rfl, by decide, by decide⟩⟩

/-- KeyWaitTakesTheLowestLatchOrStays: no latch; only the last; two, of which one lands behind the scan. -/
theorem witness_key_wait :
    (∃ s : State, ∀ k : KeyId, s.latch k.val k = false) ∧
    (∃ s : State, s.latch 15 15 = true ∧ ∀ j : KeyId, j < 15 → s.latch j.val j = false) ∧
    (∃ s : State, s.latch 9 9 = true ∧ (∀ j : KeyId, j < 9 → s.latch j.val j = false) ∧ s.latch 9 3 = true) :=
  ⟨⟨State.reset, by decide⟩, ⟨withKeys [15], by decide⟩,
    ⟨{ withKeys [9] with agenda := [⟨[], List.replicate 5 [] ++ [[⟨3, true⟩]]⟩] }, by decide⟩⟩

theorem witness_skip_if_key : ∃ (s : State) (k : KeyId), k.val = (s.reg 2).toNat % 16 ∧ s.latch 0 k = true :=
  ⟨(withKeys [7]).setReg 2 0x17, 7, by decide⟩

theorem witness_latch_quiet : ∃ s : State, s.arrivals = [] := ⟨State.reset, rfl⟩

/-- SetKeySetsOneLatch: both ends of the range, and the indexes just outside it. -/
theorem witness_set_key :
    (∃ (e : KeyEvent) (k : KeyId), e.index = (k.val : Int) ∧ k = 0) ∧
    (∃ (e : KeyEvent) (k : KeyId), e.index = (k.val : Int) ∧ k = 15) ∧
    (∃ e : KeyEvent, e.index = -1 ∧ e.index < 0) ∧ (∃ e : KeyEvent, e.index = 16 ∧ 15 < e.index) :=
  ⟨⟨⟨0, true⟩, 0, by decide⟩, ⟨⟨15, true⟩, 15, by decide⟩, ⟨⟨-1, true⟩, by decide⟩, ⟨⟨16, true⟩, by decide⟩⟩

/-- LoadCopiesOrRejects: the longest program accepted and the shortest rejected (L4, L5). -/
theorem witness_load_lengths :
    (∃ bytes : List Byte, bytes.length = 3584 ∧ bytes.length ≤ 3584) ∧
    (∃ bytes : List Byte, bytes.length = 3585 ∧ 3584 < bytes.length) :=
  ⟨⟨List.replicate 3584 7, List.length_replicate .., Nat.le_of_eq (List.length_replicate ..)⟩,
    ⟨List.replicate 3585 7, List.length_replicate .., Nat.lt_of_lt_of_eq (by decide) (List.length_replicate ..).symm⟩⟩

theorem witness_idle : ∃ s, AtIdlePoint s := ⟨State.reset.withFetchWord 16 0x1200, by decide, by decide⟩

theorem witness_fair_ticks :
    ∃ (sch : Schedule) (s : State), FairSchedule sch ∧ NoLoads sch ∧ AtIdlePoint s ∧ s.dt = 0xFF :=
  ⟨fun _ => ⟨[.setKey ⟨3, true⟩, .tick], []⟩, { State.reset.withFetchWord 16 0x1200 with dt := 0xFF },
    fun n => ⟨n, Nat.le_refl n, List.mem_cons_of_mem _ List.mem_cons_self⟩, fun _ _ h => by simp at h, ⟨by decide, by decide⟩, rfl⟩

end Sys2Proof.Tests
end

/-! SUPPORT. What an instruction can do, said once for all of them (`Effect`), and what follows from it about the state:
the invariant, the reserved region, and who writes and reads each part (spec/10_state.md). -/

namespace Sys2Proof

/-- The instructions that change nothing but `pc`: the jumps and the skips (R133, R135 to R138, R142, R240, R241). -/
def Instr.movesPcOnly : Instr → Bool
  | .jp _ | .jpV0 _ | .seImm _ _ | .sneImm _ _ | .seReg _ _ | .sneReg _ _ | .skp _ | .sknp _ => true
  | _ => false

/-- The one register that an instruction names as its destination and is all it changes besides `pc` (R42). RND, which draws
too, and the range of FX65 are left to forms of their own in `Effect`. -/
def Instr.dest : Instr → Option RegId
  | .ldImm x _ | .addImm x _ | .ldReg x _ | .orReg x _ | .andReg x _ | .xorReg x _ | .ldVxDt x | .ldVxK x => some x
  | _ => none

/-- The family-8 instructions that end with a flag in VF (R42, R175 to R179). -/
def Instr.flagsResult : Instr → Bool
  | .addReg _ _ | .subReg _ _ | .shr _ _ | .subnReg _ _ | .shl _ _ => true
  | _ => false

theorem Instr.dest_cases {i : Instr} {x : RegId} (h : i.dest = some x) :
    (∃ nn, i = .ldImm x nn ∨ i = .addImm x nn) ∨
    (∃ y, i = .ldReg x y ∨ i = .orReg x y ∨ i = .andReg x y ∨ i = .xorReg x y) ∨ i = .ldVxDt x ∨ i = .ldVxK x := by
  unfold Instr.dest at h
  split at h <;> cases h <;> simp

theorem Instr.flagsResult_cases {i : Instr} (h : i.flagsResult = true) :
    ∃ x y, i = .addReg x y ∨ i = .subReg x y ∨ i = .shr x y ∨ i = .subnReg x y ∨ i = .shl x y := by
  unfold Instr.flagsResult at h
  split at h <;> simp at h ⊢

namespace Machine

/-- The memory `m` is what an index store to `n` addresses leaves: canonical if it was, and the same at every address but the
allowed ones among those tried (R74, R224). -/
structure StoredFrom (s : State) (n : Nat) (m : Memory) : Prop where
  wf : s.mem.wf = true → m.wf = true
  kept : BytesKept ((storeAddrs s n).filter (fun a => !isReserved a)) s { s with mem := m }

/-- What an instruction can do: the state that `i` leads to from `s` has one of these forms. Left open are the value of a
jump or a skip, of a register result, the registers and pixels after a draw, and the bytes stored. -/
inductive Effect (s : State) : Instr → State → Prop
  | goto {i : Instr} (p : Word) (h : i.movesPcOnly = true) : Effect s i (s.setPc p)
  | setReg {i : Instr} (x : RegId) (b : Byte) (h : i.dest = some x) : Effect s i (s.setReg x b).advance
  | setFlagged {i : Instr} (x : RegId) (b : Byte) (c : Bool) (h : i.flagsResult = true) :
      Effect s i ((s.setReg x b).setFlag c).advance
  | cls : Effect s .cls { s with fb := Vector.replicate 32 (Vector.replicate 64 false) }.advance
  | underflow (h : s.sp = 0) : Effect s .ret (s.takeFault (.stackDiscipline .underflow) (encode .ret))
  | ret (h : 0 < s.sp.val) :
      Effect s .ret ({ s with sp := ⟨s.sp.val - 1, by omega⟩ }.setPc (s.stack[s.sp.val - 1] + 2))
  | overflow (nnn : Addr) (h : s.sp = 16) :
      Effect s (.call nnn) (s.takeFault (.stackDiscipline .overflow) (encode (.call nnn)))
  | call (nnn : Addr) (h : s.sp.val < 16) :
      Effect s (.call nnn) ({ s with stack := s.stack.set s.sp.val s.pc, sp := ⟨s.sp.val + 1, by omega⟩ }.setPc
        (addrOperand nnn))
  | ldI (nnn : Addr) : Effect s (.ldI nnn) (s.setIndex (addrOperand nnn)).advance
  | ldF (x : RegId) : Effect s (.ldF x) (s.setIndex (byteOperand (s.reg x) * 5)).advance
  | addI (x : RegId) :
      Effect s (.addI x) ((s.setIndex (BitVec.ofNat 16 ((s.index.toNat + (s.reg x).toNat) % 4096))).setFlag
        (indexFlag s.index (s.reg x))).advance
  | rnd (x : RegId) (nn : Byte) :
      Effect s (.rnd x nn) ({ s with draws := s.draws + 1 }.setReg x (Config.drawByte s.draws &&& nn)).advance
  | drw (x y : RegId) (n : Nat) (v : Vector Byte 16) (fb : Framebuffer) :
      Effect s (.drw x y n) { s with v := v, fb := fb }.advance
  | ldDtVx (x : RegId) : Effect s (.ldDtVx x) (s.setDt (s.reg x)).advance
  | ldStVx (x : RegId) : Effect s (.ldStVx x) (s.setSt (s.reg x)).advance
  | ldB (x : RegId) (m : Memory) (h : StoredFrom s 3 m) :
      Effect s (.ldB x) { { s with mem := m }.advance with
        faults := faultsAfterStores s (encode (.ldB x)) (storeAddrs s 3) }
  | storeRegs (x : RegId) (m : Memory) (h : StoredFrom s (x.val + 1) m) :
      Effect s (.storeRegs x) { ({ s with mem := m }.bumpIndex x).advance with
        faults := faultsAfterStores s (encode (.storeRegs x)) (storeAddrs s (x.val + 1)) }
  | loadRegs (x : RegId) (v : Vector Byte 16)
      (h : ∀ r, ({ s with v := v } : State).reg r = if r ≤ x then s.readAt r.val else s.reg r) :
      Effect s (.loadRegs x) ({ s with v := v }.bumpIndex x).advance
  | keyWait (x : RegId) (h : s.scanKeys = none) : Effect s (.ldVxK x) s

/-- A skip moves `pc` only. -/
theorem Effect.skipIf {i : Instr} (s : State) (c : Bool) (h : i.movesPcOnly = true) : Effect s i (s.skipIf c) := by
  rw [State.skipIf_eq]
  exact .goto _ h

/-! ## An equation for each branch of RET, CALL and the key wait -/

theorem exec_ret_of_sp_pos (s : State) (h : 0 < s.sp.val) :
    exec .ret s = .next ({ s with sp := ⟨s.sp.val - 1, by omega⟩ }.setPc (s.stack[s.sp.val - 1] + 2)) := by
  simp only [exec, execRet, State.pop_eq s h]

theorem exec_ret_of_sp_zero (s : State) (h : s.sp = 0) :
    exec .ret s = .next (s.takeFault (.stackDiscipline .underflow) (encode .ret)) := by
  simp only [exec, execRet, State.pop_empty s h]

theorem exec_call_of_sp_lt (nnn : Addr) (s : State) (h : s.sp.val < 16) :
    exec (.call nnn) s = .next ({ s with stack := s.stack.set s.sp.val s.pc, sp := ⟨s.sp.val + 1, by omega⟩ }.setPc
      (addrOperand nnn)) := by
  simp only [exec, execCall, State.push_eq s s.pc h]

theorem exec_call_of_sp_full (nnn : Addr) (s : State) (h : s.sp = 16) :
    exec (.call nnn) s = .next (s.takeFault (.stackDiscipline .overflow) (encode (.call nnn))) := by
  simp only [exec, execCall, State.push_full s s.pc h]

theorem exec_ldVxK_of_none (x : RegId) {s : State} (h : s.scanKeys = none) : exec (.ldVxK x) s = .next s := by
  simp only [exec, execLdVxK, h]

theorem exec_ldVxK_of_some (x : RegId) {s : State} {k : KeyId} (h : s.scanKeys = some k) :
    exec (.ldVxK x) s = .next (s.setReg x (keyByte k)).advance := by
  simp only [exec, execLdVxK, h]

/-- SP is 0 or above it. -/
theorem State.sp_zero_or_pos (s : State) : s.sp = 0 ∨ 0 < s.sp.val :=
  (Nat.eq_zero_or_pos s.sp.val).imp_left Fin.ext

theorem execRet_effect (s : State) : ∃ t, exec .ret s = .next t ∧ Effect s .ret t := by
  obtain h | h := s.sp_zero_or_pos
  · exact ⟨_, exec_ret_of_sp_zero s h, .underflow h⟩
  · exact ⟨_, exec_ret_of_sp_pos s h, .ret h⟩

theorem execCall_effect (nnn : Addr) (s : State) : ∃ t, exec (.call nnn) s = .next t ∧ Effect s (.call nnn) t := by
  obtain h | h := s.sp_cases
  · exact ⟨_, exec_call_of_sp_lt nnn s h, .call nnn h⟩
  · exact ⟨_, exec_call_of_sp_full nnn s h, .overflow nnn h⟩

theorem execLdVxK_effect (x : RegId) (s : State) : ∃ t, exec (.ldVxK x) s = .next t ∧ Effect s (.ldVxK x) t := by
  cases h : s.scanKeys with
  | none => exact ⟨_, exec_ldVxK_of_none x h, .keyWait x h⟩
  | some k => exact ⟨_, exec_ldVxK_of_some x h, .setReg _ _ rfl⟩

theorem execLdB_effect (x : RegId) (s : State) : ∃ t, exec (.ldB x) s = .next t ∧ Effect s (.ldB x) t := by
  obtain ⟨_, m, rfl, hwf, -, hkept, he⟩ := execLdB_eq x s
  exact ⟨_, he, .ldB x m ⟨hwf, hkept⟩⟩

theorem execStoreRegs_effect (x : RegId) (s : State) :
    ∃ t, exec (.storeRegs x) s = .next t ∧ Effect s (.storeRegs x) t := by
  obtain ⟨_, m, rfl, hwf, -, hkept, he⟩ := execStoreRegs_eq x s
  exact ⟨_, he, .storeRegs x m ⟨hwf, hkept⟩⟩

theorem execLoadRegs_effect (x : RegId) (s : State) :
    ∃ t, exec (.loadRegs x) s = .next t ∧ Effect s (.loadRegs x) t := by
  obtain ⟨v, he, hv⟩ := execLoadRegs_eq x s
  exact ⟨_, he, .loadRegs x v hv⟩

/-! ## Every instruction -/

/-- Every instruction answers a next state, in one of the forms of `Effect` (R260, R290). -/
theorem exec_answers (i : Instr) (s : State) : ∃ t, exec i s = .next t ∧ Effect s i t :=
  match i with
  | .cls => ⟨_, rfl, .cls⟩
  | .ret => execRet_effect s
  | .jp _ => ⟨_, rfl, .goto _ rfl⟩
  | .call nnn => execCall_effect nnn s
  | .seImm _ _ => ⟨_, rfl, .skipIf s _ rfl⟩
  | .sneImm _ _ => ⟨_, rfl, .skipIf s _ rfl⟩
  | .seReg _ _ => ⟨_, rfl, .skipIf s _ rfl⟩
  | .sneReg _ _ => ⟨_, rfl, .skipIf s _ rfl⟩
  | .ldImm _ _ => ⟨_, rfl, .setReg _ _ rfl⟩
  | .addImm _ _ => ⟨_, rfl, .setReg _ _ rfl⟩
  | .ldReg _ _ => ⟨_, rfl, .setReg _ _ rfl⟩
  | .orReg _ _ => ⟨_, rfl, .setReg _ _ rfl⟩
  | .andReg _ _ => ⟨_, rfl, .setReg _ _ rfl⟩
  | .xorReg _ _ => ⟨_, rfl, .setReg _ _ rfl⟩
  | .addReg _ _ => ⟨_, rfl, .setFlagged _ _ _ rfl⟩
  | .subReg _ _ => ⟨_, rfl, .setFlagged _ _ _ rfl⟩
  | .shr _ _ => ⟨_, rfl, .setFlagged _ _ _ rfl⟩
  | .subnReg _ _ => ⟨_, rfl, .setFlagged _ _ _ rfl⟩
  | .shl _ _ => ⟨_, rfl, .setFlagged _ _ _ rfl⟩
  | .ldI nnn => ⟨_, rfl, .ldI nnn⟩
  | .jpV0 _ => ⟨_, rfl, .goto _ rfl⟩
  | .rnd x nn => ⟨_, rfl, .rnd x nn⟩
  | .drw x y n => ⟨_, rfl, .drw x y n _ _⟩
  | .skp _ => ⟨_, rfl, .skipIf s _ rfl⟩
  | .sknp _ => ⟨_, rfl, .skipIf s _ rfl⟩
  | .ldVxDt _ => ⟨_, rfl, .setReg _ _ rfl⟩
  | .ldVxK x => execLdVxK_effect x s
  | .ldDtVx x => ⟨_, rfl, .ldDtVx x⟩
  | .ldStVx x => ⟨_, rfl, .ldStVx x⟩
  | .addI x => ⟨_, rfl, .addI x⟩
  | .ldF x => ⟨_, rfl, .ldF x⟩
  | .ldB x => execLdB_effect x s
  | .storeRegs x => execStoreRegs_effect x s
  | .loadRegs x => execLoadRegs_effect x s

/-- What an instruction that led from `s` to `t` has done. -/
theorem exec_effect {i : Instr} {s t : State} (h : exec i s = .next t) : Effect s i t := by
  obtain ⟨u, hu, he⟩ := exec_answers i s
  cases hu.symm.trans h
  exact he

end Machine
end Sys2Proof

namespace Sys2Proof.Machine

/-! ## The machine invariant (O4) -/

/-- A report other than that of a suppressed write is legal at every memory address. -/
theorem FaultReport.legal_of_pc {c : FaultCause} {p : Word} (w : Word) (hp : p.toNat < 4096)
    (hc : ∀ as, c ≠ .reservedWrite as) : FaultReport.legal ⟨c, p, w⟩ := by
  refine ⟨hp, ?_⟩
  cases c with
  | reservedWrite as => exact absurd rfl (hc as)
  | decode | arithSelector | stackDiscipline => trivial

theorem MachineInv.takeFault {s : State} (h : MachineInv s) {c : FaultCause} (w : Word)
    (hc : ∀ as, c ≠ .reservedWrite as) : MachineInv (s.takeFault c w) where
  mem := h.mem
  pc := State.mask12_lt _
  index := h.index
  stack := h.stack
  faults := by
    intro r hr
    obtain hr | hr := List.mem_append.mp hr
    · exact h.faults r hr
    · rw [List.mem_singleton.mp hr]
      exact FaultReport.legal_of_pc w h.pc hc

/-- The report of suppressed writes lists only reserved addresses, and at least one. -/
theorem legal_faultsAfterStores {s : State} (h : MachineInv s) (w : Word) (as : List Addr) :
    ∀ r ∈ faultsAfterStores s w as, r.legal := by
  unfold faultsAfterStores
  split
  · exact h.faults
  · next hne =>
    intro r hr
    obtain hr | hr := List.mem_append.mp hr
    · exact h.faults r hr
    · rw [List.mem_singleton.mp hr]
      exact ⟨h.pc, hne, fun a ha => (List.mem_filter.mp ha).2⟩

theorem stack_set_lt {stack : Vector Word 16} (h : ∀ k : Fin 16, (stack[k.val]).toNat < 4096) {j : Nat} (hj : j < 16)
    {a : Word} (ha : a.toNat < 4096) (k : Fin 16) : ((stack.set j a)[k.val]).toNat < 4096 := by
  rw [Vector.getElem_set]
  split
  · exact ha
  · exact h k

theorem addrOperand_lt (nnn : Addr) : (addrOperand nnn).toNat < 4096 := by
  rw [addrOperand_toNat]; exact nnn.isLt

theorem fiveTimes_lt (b : Byte) : (byteOperand b * 5).toNat < 4096 := by
  have hb : (byteOperand b).toNat ≤ b.toNat := by
    rw [byteOperand, BitVec.toNat_setWidth]
    exact Nat.mod_le _ _
  calc (byteOperand b * 5).toNat ≤ (byteOperand b).toNat * 5 := by
        rw [BitVec.toNat_mul]
        exact Nat.mod_le _ _
    _ ≤ b.toNat * 5 := Nat.mul_le_mul_right 5 hb
    _ < 4096 := by have := b.isLt; omega

theorem ofNat_mod_lt (n : Nat) : (BitVec.ofNat 16 (n % 4096)).toNat < 4096 := by
  rw [BitVec.toNat_ofNat]
  omega

/-- Every instruction keeps the invariant. -/
theorem MachineInv.exec {i : Instr} {s t : State} (h : MachineInv s) (he : exec i s = .next t) : MachineInv t := by
  have hpc {w : Word} : (mask12 w).toNat < 4096 := State.mask12_lt w
  cases exec_effect he with
  | underflow hsp => exact h.takeFault _ nofun
  | overflow nnn hsp => exact h.takeFault _ nofun
  | call nnn hsp => exact ⟨h.mem, hpc, h.index, stack_set_lt h.stack hsp h.pc, h.faults⟩
  | ldI nnn => exact ⟨h.mem, hpc, addrOperand_lt nnn, h.stack, h.faults⟩
  | ldF x => exact ⟨h.mem, hpc, fiveTimes_lt _, h.stack, h.faults⟩
  | addI x => exact ⟨h.mem, hpc, ofNat_mod_lt _, h.stack, h.faults⟩
  | ldB x m hm => exact ⟨hm.wf h.mem, hpc, h.index, h.stack, legal_faultsAfterStores h _ _⟩
  | storeRegs x m hm => exact ⟨hm.wf h.mem, hpc, hpc, h.stack, legal_faultsAfterStores h _ _⟩
  | loadRegs x v hv => exact ⟨h.mem, hpc, hpc, h.stack, h.faults⟩
  | keyWait x hk => exact h
  | _ => exact ⟨h.mem, hpc, h.index, h.stack, h.faults⟩

theorem MachineInv.cycle {s t : State} (h : MachineInv s) (hc : cycle s = .next t) : MachineInv t := by
  obtain ⟨i, -, he⟩ | ⟨-, rfl⟩ | ⟨-, rfl⟩ := cycle_cases hc
  · exact h.exec he
  · exact h.takeFault _ nofun
  · exact h.takeFault _ nofun

theorem MachineInv.beginStep {s : State} (h : MachineInv s) : MachineInv s.beginStep := by
  obtain ⟨es, a, hb⟩ := s.beginStep_eq
  rw [hb, State.hostEvents_fields]
  exact ⟨State.hostEvents_wf es h.mem, h.pc, h.index, h.stack, h.faults⟩

theorem MachineInv.endStep {s : State} (h : MachineInv s) : MachineInv s.endStep :=
  ⟨h.mem, h.pc, h.index, h.stack, h.faults⟩

/-- Settles O4: the events before the fetch, the cycle and the end of the slot each keep the invariant. -/
theorem everyStepKeepsTheInvariant : Obligations.EveryStepKeepsTheInvariant := by
  intro s t h hstep
  obtain ⟨u, hu, rfl⟩ := step_cases hstep
  exact (h.beginStep.cycle hu).endStep

/-! ## The reserved region (O15) -/

/-- An index store keeps every byte at a reserved address. -/
theorem StoredFrom.read_reserved {s : State} {n : Nat} {m : Memory} (h : StoredFrom s n m) {a : Addr}
    (ha : isReserved a = true) : ({ s with mem := m } : State).read a = s.read a :=
  h.kept a (by simp [ha])

theorem exec_read_reserved {i : Instr} {s t : State} (he : exec i s = .next t) {a : Addr} (ha : isReserved a = true) :
    t.read a = s.read a := by
  cases exec_effect he with
  | ldB x m hm => exact hm.read_reserved ha
  | storeRegs x m hm => exact hm.read_reserved ha
  | _ => rfl

theorem cycle_read_reserved {s t : State} (hc : cycle s = .next t) {a : Addr} (ha : isReserved a = true) :
    t.read a = s.read a := by
  obtain ⟨i, -, he⟩ | ⟨-, rfl⟩ | ⟨-, rfl⟩ := cycle_cases hc
  · exact exec_read_reserved he ha
  · rfl
  · rfl

theorem State.beginStep_read_reserved (s : State) {a : Addr} (ha : a.toNat < 0x200) : s.beginStep.read a = s.read a := by
  obtain ⟨es, g, hb⟩ := s.beginStep_eq
  rw [hb]
  exact State.hostEvents_read_reserved es s ha

/-- Settles O15: a load keeps the bytes below 0x200, an instruction's stores there are suppressed, and nothing else writes
memory. -/
theorem reservedRegionIsNeverOverwritten : Obligations.ReservedRegionIsNeverOverwritten := by
  intro s t hstep a ha
  obtain ⟨u, hu, rfl⟩ := step_cases hstep
  calc u.endStep.read a = u.read a := rfl
    _ = s.beginStep.read a := cycle_read_reserved hu (decide_eq_true ha)
    _ = s.read a := s.beginStep_read_reserved ha

/-! ## Who writes VF (O18) -/

theorem State.eq_VF_of_setReg_ne {s : State} {x : RegId} {b : Byte} (h : (s.setReg x b).reg VF ≠ s.reg VF) : x = VF := by
  by_contra hx
  exact h (s.reg_setReg_other b (Ne.symm hx))

/-- Settles O18: the forms of `Effect` that write a register write a flag, the named destination, or the range of FX65. -/
theorem onlyFlagWritersChangeVF : Obligations.OnlyFlagWritersChangeVF := by
  intro i s t he hne
  cases exec_effect he with
  | setReg x b hd =>
    rw [State.eq_VF_of_setReg_ne (s := s) (x := x) (b := b) hne] at hd
    obtain ⟨nn, rfl | rfl⟩ | ⟨y, rfl | rfl | rfl | rfl⟩ | rfl | rfl := Instr.dest_cases hd <;> simp
  | rnd x nn =>
    obtain rfl : x = VF := State.eq_VF_of_setReg_ne (s := s) (b := Config.drawByte s.draws &&& nn) hne
    exact .inr (.inr (.inr (.inl ⟨nn, .inr (.inr rfl)⟩)))
  | setFlagged x b c hf => exact .inl (Instr.flagsResult_cases hf)
  | drw x y n v fb => exact .inr (.inl ⟨x, y, n, rfl⟩)
  | addI x => exact .inr (.inr (.inl ⟨x, rfl⟩))
  | loadRegs x v hv =>
    by_cases hx : VF ≤ x
    · rw [le_antisymm (Fin.le_last x) hx]
      simp
    · exact absurd ((hv VF).trans (if_neg hx)) hne
  | _ => exact absurd rfl hne

/-! ## Who writes each other part (O19) -/

section
variable {i : Instr} {s t : State} (he : exec i s = .next t)
include he

theorem sp_writers (h : t.sp ≠ s.sp) : i = .ret ∨ ∃ nnn, i = .call nnn := by
  cases exec_effect he with
  | ret hsp => exact .inl rfl
  | call nnn hsp => exact .inr ⟨nnn, rfl⟩
  | _ => exact absurd rfl h

theorem stack_writers (h : t.stack ≠ s.stack) : ∃ nnn, i = .call nnn := by
  cases exec_effect he with
  | call nnn hsp => exact ⟨nnn, rfl⟩
  | _ => exact absurd rfl h

theorem index_writers (h : t.index ≠ s.index) :
    (∃ nnn, i = .ldI nnn) ∨ ∃ x, i = .addI x ∨ i = .ldF x ∨ i = .storeRegs x ∨ i = .loadRegs x := by
  cases exec_effect he with
  | ldI nnn => exact .inl ⟨nnn, rfl⟩
  | addI x => exact .inr ⟨x, .inl rfl⟩
  | ldF x => exact .inr ⟨x, .inr (.inl rfl)⟩
  | storeRegs x m hm => exact .inr ⟨x, .inr (.inr (.inl rfl))⟩
  | loadRegs x v hv => exact .inr ⟨x, .inr (.inr (.inr rfl))⟩
  | _ => exact absurd rfl h

theorem mem_writers (h : t.mem ≠ s.mem) : ∃ x, i = .ldB x ∨ i = .storeRegs x := by
  cases exec_effect he with
  | ldB x m hm => exact ⟨x, .inl rfl⟩
  | storeRegs x m hm => exact ⟨x, .inr rfl⟩
  | _ => exact absurd rfl h

theorem dt_writers (h : t.dt ≠ s.dt) : ∃ x, i = .ldDtVx x := by
  cases exec_effect he with
  | ldDtVx x => exact ⟨x, rfl⟩
  | _ => exact absurd rfl h

theorem st_writers (h : t.st ≠ s.st) : ∃ x, i = .ldStVx x := by
  cases exec_effect he with
  | ldStVx x => exact ⟨x, rfl⟩
  | _ => exact absurd rfl h

theorem fb_writers (h : t.fb ≠ s.fb) : i = .cls ∨ ∃ x y n, i = .drw x y n := by
  cases exec_effect he with
  | cls => exact .inl rfl
  | drw x y n v fb => exact .inr ⟨x, y, n, rfl⟩
  | _ => exact absurd rfl h

theorem draws_writers (h : t.draws ≠ s.draws) : ∃ x nn, i = .rnd x nn := by
  cases exec_effect he with
  | rnd x nn => exact ⟨x, nn, rfl⟩
  | _ => exact absurd rfl h

theorem exec_key_agenda : t.key = s.key ∧ t.agenda = s.agenda := by
  cases exec_effect he with
  | _ => exact ⟨rfl, rfl⟩

end

/-- Settles O19: one lemma for each part, read off the forms of `Effect` that set it. -/
theorem eachPartHasOnlyItsWriters : Obligations.EachPartHasOnlyItsWriters := by
  intro i s t he
  exact ⟨sp_writers he, stack_writers he, index_writers he, mem_writers he, dt_writers he, st_writers he, fb_writers he,
    draws_writers he, exec_key_agenda he⟩

/-! ## The sound timer and the fault log are not read (O20) -/

/-- The state with ST and the fault log replaced. -/
def State.withStFaults (b : Byte) (fs : List FaultReport) (s : State) : State := { s with st := b, faults := fs }

/-- From `s` to `t` the instruction reports `new`, and with ST and the fault log replaced it does the same: ST stays replaced
and the same reports are appended. -/
def Blind (i : Instr) (s t : State) (new : List FaultReport) : Prop :=
  t.faults = s.faults ++ new ∧
    ∀ b fs, exec i (s.withStFaults b fs) = .next (t.withStFaults b (fs ++ new))

/-- An instruction that reports nothing. -/
theorem Blind.of_quiet {i : Instr} {s t : State} (hf : t.faults = s.faults)
    (he : ∀ b fs, exec i (s.withStFaults b fs) = .next (t.withStFaults b fs)) : Blind i s t [] :=
  ⟨by rw [hf, List.append_nil], fun b fs => by rw [he, List.append_nil]⟩

theorem State.skipIf_withStFaults (b : Byte) (fs : List FaultReport) (s : State) (c : Bool) :
    (s.withStFaults b fs).skipIf c = (s.skipIf c).withStFaults b fs := by
  cases c <;> rfl

theorem blind_skipIf (s : State) (i : Instr) (c : Bool)
    (h : ∀ b fs, exec i (s.withStFaults b fs) = .next ((s.withStFaults b fs).skipIf c)) : Blind i s (s.skipIf c) [] := by
  refine .of_quiet (by cases c <;> rfl) fun b fs => ?_
  rw [h, State.skipIf_withStFaults]

theorem reportSuppressed_withStFaults (pc0 w : Word) (p : Writing) :
    ∃ new, (reportSuppressed pc0 w p).faults = p.1.faults ++ new ∧ ∀ b fs,
      reportSuppressed pc0 w (p.1.withStFaults b fs, p.2) = (reportSuppressed pc0 w p).withStFaults b (fs ++ new) := by
  obtain ⟨u, as⟩ := p
  cases as with
  | nil => exact ⟨[], (List.append_nil _).symm, fun b fs => by rw [List.append_nil]; rfl⟩
  | cons a as => exact ⟨_, rfl, fun b fs => rfl⟩

theorem execRet_blind (s : State) : ∃ t new, exec .ret s = .next t ∧ Blind .ret s t new := by
  obtain h | h := s.sp_zero_or_pos
  · exact ⟨_, _, exec_ret_of_sp_zero s h, rfl, fun b fs => exec_ret_of_sp_zero (s.withStFaults b fs) h⟩
  · exact ⟨_, _, exec_ret_of_sp_pos s h, .of_quiet rfl fun b fs => exec_ret_of_sp_pos (s.withStFaults b fs) h⟩

theorem execCall_blind (nnn : Addr) (s : State) : ∃ t new, exec (.call nnn) s = .next t ∧ Blind (.call nnn) s t new := by
  obtain h | h := s.sp_cases
  · exact ⟨_, _, exec_call_of_sp_lt nnn s h, .of_quiet rfl fun b fs => exec_call_of_sp_lt nnn (s.withStFaults b fs) h⟩
  · exact ⟨_, _, exec_call_of_sp_full nnn s h, rfl, fun b fs => exec_call_of_sp_full nnn (s.withStFaults b fs) h⟩

theorem execLdVxK_blind (x : RegId) (s : State) : ∃ t new, exec (.ldVxK x) s = .next t ∧ Blind (.ldVxK x) s t new := by
  have hs : ∀ b fs, (s.withStFaults b fs).scanKeys = s.scanKeys := fun _ _ => rfl
  cases h : s.scanKeys with
  | none => exact ⟨_, _, exec_ldVxK_of_none x h, .of_quiet rfl fun b fs => exec_ldVxK_of_none x ((hs b fs).trans h)⟩
  | some k => exact ⟨_, _, exec_ldVxK_of_some x h, .of_quiet rfl fun b fs => exec_ldVxK_of_some x ((hs b fs).trans h)⟩

/-- The stores of FX33 and FX55: the bytes from I, `after` on what they leave, then the report (R227, R228). -/
def storeThen (after : State → State) (w : Word) (bs : List Byte) (s : State) : State :=
  reportSuppressed s.pc w (after (memWriteFrom s.index 0 bs (s, [])).1, (memWriteFrom s.index 0 bs (s, [])).2)

theorem storeThen_withStFaults {after : State → State} (w : Word) (bs : List Byte) (s : State)
    (hf : ∀ u, (after u).faults = u.faults)
    (ha : ∀ b fs u, after (u.withStFaults b fs) = (after u).withStFaults b fs) :
    ∃ new, (storeThen after w bs s).faults = s.faults ++ new ∧
      ∀ b fs, storeThen after w bs (s.withStFaults b fs) = (storeThen after w bs s).withStFaults b (fs ++ new) := by
  obtain ⟨new, hnew, hr⟩ := reportSuppressed_withStFaults s.pc w
    (after (memWriteFrom s.index 0 bs (s, [])).1, (memWriteFrom s.index 0 bs (s, [])).2)
  refine ⟨new, ?_, fun b fs => ?_⟩
  · have hs : (memWriteFrom s.index 0 bs (s, [])).1.faults = s.faults := by rw [memWriteFrom_fields]
    rw [storeThen, hnew, hf, hs]
  · have hw : memWriteFrom s.index 0 bs (s.withStFaults b fs, []) =
        ((memWriteFrom s.index 0 bs (s, [])).1.withStFaults b fs, (memWriteFrom s.index 0 bs (s, [])).2) :=
      memWriteFrom_st_faults s.index 0 bs s [] b fs
    calc storeThen after w bs (s.withStFaults b fs)
        = reportSuppressed s.pc w (after (memWriteFrom s.index 0 bs (s.withStFaults b fs, [])).1,
            (memWriteFrom s.index 0 bs (s.withStFaults b fs, [])).2) := rfl
      _ = (storeThen after w bs s).withStFaults b (fs ++ new) := by rw [hw, ha, hr, storeThen]

theorem blind_storeThen (s : State) (i : Instr) (w : Word) (bs : List Byte) {after : State → State}
    (hf : ∀ u, (after u).faults = u.faults)
    (ha : ∀ b fs u, after (u.withStFaults b fs) = (after u).withStFaults b fs)
    (h : ∀ b fs, exec i (s.withStFaults b fs) = .next (storeThen after w bs (s.withStFaults b fs))) :
    ∃ new, Blind i s (storeThen after w bs s) new := by
  obtain ⟨new, hnew, hs⟩ := storeThen_withStFaults w bs s hf ha
  exact ⟨new, hnew, fun b fs => by rw [h, hs]⟩

theorem execLdB_blind (x : RegId) (s : State) : ∃ t new, exec (.ldB x) s = .next t ∧ Blind (.ldB x) s t new := by
  obtain ⟨new, h⟩ := blind_storeThen s (.ldB x) (encode (.ldB x)) (decimalDigits (s.reg x)) (after := State.advance)
    (fun _ => rfl) (fun _ _ _ => rfl) (fun _ _ => rfl)
  exact ⟨_, new, rfl, h⟩

theorem execStoreRegs_blind (x : RegId) (s : State) :
    ∃ t new, exec (.storeRegs x) s = .next t ∧ Blind (.storeRegs x) s t new := by
  obtain ⟨new, h⟩ := blind_storeThen s (.storeRegs x) (encode (.storeRegs x)) (s.rangeBytes x)
    (after := fun u => (u.bumpIndex x).advance) (fun _ => rfl) (fun _ _ _ => rfl) (fun _ _ => rfl)
  exact ⟨_, new, rfl, h⟩

theorem execLoadRegs_blind (x : RegId) (s : State) :
    ∃ t new, exec (.loadRegs x) s = .next t ∧ Blind (.loadRegs x) s t new := by
  have hs : ((regRange x).foldl (fun u r => u.setReg r (s.readAt r.val)) s).faults = s.faults := by
    rw [(foldl_setReg (fun r => s.readAt r.val) (regRange x) s).1]
  exact ⟨_, _, rfl, .of_quiet hs fun b fs => congrArg (fun u : State => Host.Outcome.next (u.bumpIndex x).advance)
    (foldl_setReg_st_faults (fun r => s.readAt r.val) (regRange x) s b fs)⟩

/-- Only FX18 writes ST, and no instruction reads ST or the fault log (R39, R45). -/
theorem exec_blind {i : Instr} (s : State) (hi : ∀ x, i ≠ .ldStVx x) : ∃ t new, exec i s = .next t ∧ Blind i s t new := by
  cases i with
  | ret => exact execRet_blind s
  | call nnn => exact execCall_blind nnn s
  | seImm x nn => exact ⟨_, _, rfl, blind_skipIf s _ _ fun _ _ => rfl⟩
  | sneImm x nn => exact ⟨_, _, rfl, blind_skipIf s _ _ fun _ _ => rfl⟩
  | seReg x y => exact ⟨_, _, rfl, blind_skipIf s _ _ fun _ _ => rfl⟩
  | sneReg x y => exact ⟨_, _, rfl, blind_skipIf s _ _ fun _ _ => rfl⟩
  | skp x => exact ⟨_, _, rfl, blind_skipIf s _ _ fun _ _ => rfl⟩
  | sknp x => exact ⟨_, _, rfl, blind_skipIf s _ _ fun _ _ => rfl⟩
  | ldVxK x => exact execLdVxK_blind x s
  | ldB x => exact execLdB_blind x s
  | storeRegs x => exact execStoreRegs_blind x s
  | loadRegs x => exact execLoadRegs_blind x s
  | ldStVx x => exact absurd rfl (hi x)
  | _ => exact ⟨_, _, rfl, .of_quiet rfl fun _ _ => rfl⟩

/-- Settles O20: FX18 writes ST without reading it; every other instruction is `Blind`. -/
theorem noInstructionReadsSoundTimerOrFaultLog : Obligations.NoInstructionReadsSoundTimerOrFaultLog := by
  intro i s t b fs he
  by_cases hst : ∃ x, i = .ldStVx x
  · obtain ⟨x, rfl⟩ := hst
    cases he
    exact ⟨[], s.reg x, (List.append_nil _).symm, fun _ => rfl, fun h => absurd rfl (h x), by rw [List.append_nil]; rfl⟩
  · obtain ⟨u, new, hu, hf, hblind⟩ := exec_blind s (fun x hx => hst ⟨x, hx⟩)
    cases hu.symm.trans he
    exact ⟨new, b, hf, fun h => absurd h hst, fun _ => rfl, hblind b fs⟩

/-! ## Reset (O1, O2, O3) -/

/-- What memory holds at reset: the font in its 80 bytes, then the fill (R50). -/
theorem resetWith_read (font : Vector Byte 80) (fill : Vector Byte 4016) (a : Addr) :
    (State.resetWith font fill).read a =
      if 80 ≤ a.toNat then fill.toList.getD (a.toNat - 80) 0 else font.toList.getD a.toNat 0 := by
  have ha := a.isLt
  simp only [State.read, State.resetWith, Memory.read_writeBytes, Vector.length_toList, Config.fontSize]
  by_cases h : 80 ≤ a.toNat
  · rw [if_pos (by omega), if_pos h]
  · rw [if_neg (by omega), if_neg h, if_pos (by omega), Nat.sub_zero]

/-- Settles O1: memory by `resetWith_read`, every other field by `State.reset` itself. -/
theorem resetLeavesEveryFieldAtItsValue : Obligations.ResetLeavesEveryFieldAtItsValue := by
  rintro font s rfl
  refine ⟨fun r => Vector.getElem_replicate _, rfl, rfl, fun a => ?_, fun a ha => ?_, fun k => Vector.getElem_replicate _,
    rfl, rfl, rfl, fun k => Vector.getElem_replicate _, fun q c => ?_, rfl⟩
  · have ha := a.isLt
    rw [resetWith_read, BitVec.toNat_ofNat, Nat.mod_eq_of_lt (by omega), if_neg (by omega),
      List.getD_eq_getElem _ _ (by rw [Vector.length_toList]; exact ha), Vector.getElem_toList]
  · have hlt := a.isLt
    rw [resetWith_read, if_pos ha, Vector.toList_replicate, List.getD_replicate _ (by omega)]
  · show ((Vector.replicate 32 (Vector.replicate 64 false))[q.val])[c.val] = false
    rw [Vector.getElem_replicate, Vector.getElem_replicate]

theorem defaultFont_length : defaultFont.length = 80 := rfl

/-- Settles O2: bytes equal to those an unlisted address reads as leave memory empty. -/
theorem resetTakesTheDefaultFont : Obligations.ResetTakesTheDefaultFont := by
  intro font hfont
  have h1 : Memory.writeBytes [] 0 font.toList = [] := by
    rw [hfont]
    refine Memory.writeBytes_resetByte _ _ fun k hk => ?_
    rw [resetByte, Nat.zero_add, List.getD_eq_getElem _ _ hk]
  have h2 : Memory.writeBytes [] 80 (Vector.replicate 4016 (0 : Byte)).toList = [] := by
    refine Memory.writeBytes_resetByte _ _ fun k hk => ?_
    rw [resetByte, List.getD_eq_default _ _ (by rw [defaultFont_length]; omega)]
    simp only [Vector.toList_replicate, List.getElem_replicate]
  have h : Memory.writeBytes (Memory.writeBytes [] 0 font.toList) 80 (Vector.replicate 4016 (0 : Byte)).toList = [] := by
    rw [h1, h2]
  exact congrArg (fun m => { State.reset with mem := m }) h

/-- Settles O3: each clause read off the reset values. -/
theorem resetMeetsTheInvariant : Obligations.ResetMeetsTheInvariant where
  mem := rfl
  pc := by decide
  index := by decide
  stack := by decide
  faults := List.forall_mem_nil _

/-! ## The count of draws and the key port (O33, O54) -/

/-- Settles O33: the draw is the only change of the counter. -/
theorem randomConsumesOneDraw : Obligations.RandomConsumesOneDraw := by
  intro x nn s t he
  cases he
  rfl

theorem onlyChanges_setKey (s : State) (e : KeyEvent) : OnlyChanges [.key] s (s.setKey e) := by
  intro p hp
  cases p with
  | key => exact absurd List.mem_cons_self hp
  | _ => simp [Part.same]

/-- Settles O54: `landKey` inside the range of indexes and outside it. -/
theorem setKeySetsOneLatch : Obligations.SetKeySetsOneLatch := by
  intro s e
  refine ⟨fun k hk => ⟨?_, fun j hj => ?_, onlyChanges_setKey s e⟩, fun h => ?_⟩
  · simp [landKey_in hk]
  · simp [landKey_in hk, Vector.getElem_set_ne, Fin.val_ne_of_ne hj.symm]
  · rw [State.setKey, landKey_out h]

end Sys2Proof.Machine

namespace Sys2Proof.Machine

/-! ## A stored byte and the next fetch (O60, O50) -/

/-- What FX55 leaves at an allowed address of its range (R228). -/
theorem exec_storeRegs_read {x : RegId} {s t : State} (he : exec (.storeRegs x) s = .next t) {r : RegId} (hr : r ≤ x)
    (hfree : isReserved (offsetAddr s.index r.val) = false) : t.read (offsetAddr s.index r.val) = s.reg r := by
  obtain ⟨u, _, _, -, hstored, -, hnext⟩ := execStoreRegs_eq x s
  cases hnext.symm.trans he
  exact hstored r hr hfree

/-- What FX33 leaves at an allowed one of its three addresses (R227). -/
theorem exec_ldB_read {x : RegId} {s t : State} (he : exec (.ldB x) s = .next t) {k : Nat}
    (hk : k < (decimalDigits (s.reg x)).length) (hfree : isReserved (offsetAddr s.index k) = false) :
    t.read (offsetAddr s.index k) = (decimalDigits (s.reg x))[k] := by
  obtain ⟨u, _, _, -, hstored, -, hnext⟩ := execLdB_eq x s
  cases hnext.symm.trans he
  exact hstored k hk hfree

/-- The digits that FX33 stores, as numbers: hundreds, tens, ones (R227). -/
theorem exec_ldB_read_toNat {x : RegId} {s t : State} (he : exec (.ldB x) s = .next t) {k d : Nat}
    (hdigit : (k = 0 ∧ d = (s.reg x).toNat / 100) ∨ (k = 1 ∧ d = (s.reg x).toNat / 10 % 10) ∨
      (k = 2 ∧ d = (s.reg x).toNat % 10))
    (hfree : isReserved (offsetAddr s.index k) = false) : (t.read (offsetAddr s.index k)).toNat = d := by
  obtain ⟨hundreds, tens, ones⟩ := decimalDigits_toNat (s.reg x)
  obtain ⟨rfl, rfl⟩ | ⟨rfl, rfl⟩ | ⟨rfl, rfl⟩ := hdigit
  · exact (congrArg BitVec.toNat (exec_ldB_read he _ hfree)).trans hundreds
  · exact (congrArg BitVec.toNat (exec_ldB_read he _ hfree)).trans tens
  · exact (congrArg BitVec.toNat (exec_ldB_read he _ hfree)).trans ones

/-- Settles O60: the byte is in memory after the store, and the fetch reads memory. -/
theorem everyStoredByteIsFetchedAtOnce : Obligations.EveryStoredByteIsFetchedAtOnce := by
  intro x s t p
  refine ⟨fun he r hr hfree => ?_, fun he k d hdigit hfree => ?_⟩
  · rw [← exec_storeRegs_read he hr hfree]
    exact t.fetchWord_at p s.index r.val
  · rw [← exec_ldB_read_toNat he hdigit hfree]
    exact t.fetchWord_at p s.index k

/-- Settles O50: O60 at F155, V0 as the high byte of the word at I and V1 as its low byte. -/
theorem storedWordIsFetchedAtOnce : Obligations.StoredWordIsFetchedAtOnce := by
  intro s t hfree he
  have hbyte : ∀ r : RegId, r ≤ 1 → isReserved (offsetAddr s.index r.val) = false := fun r hr =>
    hfree _ (List.mem_map_of_mem (List.mem_range.mpr (Nat.lt_succ_of_le hr)))
  have stored := (everyStoredByteIsFetchedAtOnce 1 s t s.index).1 he
  have high := (stored 0 (by decide) (hbyte 0 (by decide))).1 rfl
  have low := (stored 1 (by decide) (hbyte 1 (by decide))).2 rfl
  omega

/-! ## The fetch (O11) -/

theorem toAddr_eq_ofNat (a : Word) : toAddr a = BitVec.ofNat 12 a.toNat :=
  BitVec.eq_of_toNat_eq (by rw [State.toAddr_toNat, BitVec.toNat_ofNat])

theorem toAddr_succ_eq_ofNat (a : Word) : toAddr (a + 1) = BitVec.ofNat 12 (a.toNat + 1) :=
  BitVec.eq_of_toNat_eq ((State.offsetAddr_toNat a 1).trans (BitVec.toNat_ofNat (a.toNat + 1) 12).symm)

/-- Settles O11: both addresses of the fetch are `pc` and `pc + 1` modulo 4096. -/
theorem fetchIsBigEndianAndWraps : Obligations.FetchIsBigEndianAndWraps := by
  intro s
  refine ⟨?_, fun hpc => ?_⟩
  · rw [State.fetchWord_toNat, toAddr_eq_ofNat, toAddr_succ_eq_ofNat]
  · rw [State.fetchWord_toNat, hpc]
    rfl

/-! ## The outside events before a step (O13) -/

theorem State.beginStep_of_agenda {s : State} {slot : Slot} {rest : List Slot} (h : s.agenda = slot :: rest) :
    s.beginStep = { s.hostEvents slot.before with agenda := { slot with before := [] } :: rest } := by
  simp only [State.beginStep, h]

/-- Once the events before a step have fallen, none of them is left to fall again (R84). -/
theorem State.beginStep_beginStep (s : State) : s.beginStep.beginStep = s.beginStep := by
  cases h : s.agenda with
  | nil => rw [State.beginStep_of_no_agenda h, State.beginStep_of_no_agenda h]
  | cons slot rest =>
    rw [State.beginStep_of_agenda h]
    rfl

theorem step_beginStep (s : State) : step s.beginStep = step s :=
  congrArg (fun u => finish (cycle u)) s.beginStep_beginStep

/-- Settles O13: the state that the events lead to is `beginStep`, and `beginStep` adds nothing to itself. -/
theorem eventsBeforeAStepComeFirst : Obligations.EventsBeforeAStepComeFirst := by
  intro s slot rest h
  rw [← State.beginStep_of_agenda h, step_beginStep]

/-! ## A latch read (O53) -/

/-- Settles O53: the groups landed by the `nth` read are a prefix of the key events of the step. -/
theorem latchReadIsAValueHeldDuringTheStep : Obligations.LatchReadIsAValueHeldDuringTheStep := by
  intro s nth k
  refine ⟨?_, fun hquiet => State.latch_quiet hquiet nth k⟩
  obtain ⟨m, hm, hlanded⟩ := arrivals_landed s.arrivals (nth + 1)
  exact ⟨m, hm, by rw [State.latch, hlanded]⟩

end Sys2Proof.Machine

/-! SUPPORT. The decoder, the encoder and the opcode table as views of one map (spec/30_encoding.md R100 to R107), and what
the cycle does with a word outside that map. -/

namespace Sys2Proof

/-! ## Decoding the word of an instruction (O6) -/

/-- Decoding undoes encoding, format by format (R102). -/
theorem decodeWord_encode {i : Instr} (hwf : i.wf = true) : decodeWord (encode i) = .insn i := by
  cases i with
  | cls | ret => rfl
  | jp nnn | call nnn | ldI nnn | jpV0 nnn => exact decodeWord_packA _ nnn _ (by simp)
  | seImm x nn | sneImm x nn | ldImm x nn | addImm x nn | rnd x nn => exact decodeWord_packRI _ x nn _ (by simp)
  | seReg x y | sneReg x y => simp [encode, decodeWord, decodeStrictRR]
  | ldReg x y | orReg x y | andReg x y | xorReg x y | addReg x y | subReg x y | shr x y | subnReg x y | shl x y =>
    rw [encode, decodeWord_family8]
    simp [decodeFamily8]
  | drw x y n =>
    have hn : n < 16 := of_decide_eq_true hwf
    simp [encode, decodeWord, Nat.mod_eq_of_lt hn]
  | skp x | sknp x =>
    rw [encode, decodeWord_familyE]
    simp [decodeFamilyE]
  | ldVxDt x | ldVxK x | ldDtVx x | ldStVx x | addI x | ldF x | ldB x | storeRegs x | loadRegs x =>
    rw [encode, decodeWord_familyF]
    simp [decodeFamilyF]

/-- Settles O6: `decodeWord_encode`, which reads each format's fields back from its packed word. -/
theorem decodeOfEncodeIsTheInstruction : Obligations.DecodeOfEncodeIsTheInstruction :=
  fun _ hwf => decodeWord_encode hwf

/-! ## What the decoder can answer (O7) -/

/-- What an answer says of the word it is given for: an instruction is well formed and its word is that word, and the two
encoding faults tell family 8 from the rest (R105, R107). -/
def Decoded.SoundFor (w : Word) : Decoded → Prop
  | .insn i => i.wf = true ∧ encode i = w
  | .decodeFault => fieldF w ≠ 8
  | .selectorFault => fieldF w = 8

section
variable {w : Word} {f : BitVec 4}

theorem packA_of_fieldF (hf : fieldF w = f) : packA f (fieldNNN w) = w := hf ▸ packA_fields w

theorem packRI_of_fieldF (hf : fieldF w = f) : packRI f (fieldX w) (fieldNN w) = w := hf ▸ packRI_fields w

theorem packRI_of_fields {nn : Byte} (hf : fieldF w = f) (hnn : fieldNN w = nn) : packRI f (fieldX w) nn = w :=
  hnn ▸ packRI_of_fieldF hf

theorem packRR_of_fields {n : BitVec 4} (hf : fieldF w = f) (hn : fieldN w = n) :
    packRR f (fieldX w) (fieldY w) n = w := hf ▸ hn ▸ packRR_fields w

theorem fieldF_ne_eight (hf : fieldF w = f) (hne : f ≠ 8) : fieldF w ≠ 8 := hf ▸ hne

/-- The height of a sprite is the low nibble as a number (R103). -/
theorem drw_of_fieldF (hf : fieldF w = 0xD) :
    (Instr.drw (fieldX w) (fieldY w) (fieldN w).toNat).wf = true ∧
      encode (.drw (fieldX w) (fieldY w) (fieldN w).toNat) = w := by
  refine ⟨decide_eq_true (fieldN w).isLt, ?_⟩
  rw [encode, BitVec.ofNat_toNat, BitVec.setWidth_eq]
  exact packRR_of_fields hf rfl

theorem decodeFamily0_soundFor (hf : fieldF w = 0) : (decodeFamily0 w).SoundFor w := by
  unfold decodeFamily0
  split_ifs with hcls hret
  · exact ⟨rfl, hcls.symm⟩
  · exact ⟨rfl, hret.symm⟩
  · exact fieldF_ne_eight hf (by decide)

/-- Families 5 and 9. -/
theorem decodeStrictRR_soundFor {build : RegId → RegId → Instr} (hf : fieldF w = f) (hne : f ≠ 8)
    (hbuild : ∀ x y, (build x y).wf = true ∧ encode (build x y) = packRR f x y 0) :
    (decodeStrictRR build w).SoundFor w := by
  unfold decodeStrictRR
  split_ifs with hn
  · obtain ⟨hwf, hword⟩ := hbuild (fieldX w) (fieldY w)
    exact ⟨hwf, hword.trans (packRR_of_fields hf hn)⟩
  · exact fieldF_ne_eight hf hne

theorem decodeFamily8_soundFor (hf : fieldF w = 8) : (decodeFamily8 w).SoundFor w := by
  unfold decodeFamily8
  split_ifs with hn hn hn hn hn hn hn hn hn
  case neg => exact hf
  all_goals exact ⟨rfl, packRR_of_fields hf hn⟩

theorem decodeFamilyE_soundFor (hf : fieldF w = 0xE) : (decodeFamilyE w).SoundFor w := by
  unfold decodeFamilyE
  split_ifs with hnn hnn
  case neg => exact fieldF_ne_eight hf (by decide)
  all_goals exact ⟨rfl, packRI_of_fields hf hnn⟩

theorem decodeFamilyF_soundFor (hf : fieldF w = 0xF) : (decodeFamilyF w).SoundFor w := by
  unfold decodeFamilyF
  split_ifs with hnn hnn hnn hnn hnn hnn hnn hnn hnn
  case neg => exact fieldF_ne_eight hf (by decide)
  all_goals exact ⟨rfl, packRI_of_fields hf hnn⟩

end

/-- The decoder's answer says the truth of every word: one case for each family, case `h_k` for family `k - 1`
(R105). -/
theorem decodeWord_soundFor (w : Word) : (decodeWord w).SoundFor w := by
  have family {f : BitVec 4} (h : (fieldF w).toNat = f.toNat) : fieldF w = f := BitVec.eq_of_toNat_eq h
  unfold decodeWord
  split
  case h_1 h => exact decodeFamily0_soundFor (family h)
  case h_2 h | h_3 h | h_11 h | h_12 h => exact ⟨rfl, packA_of_fieldF (family h)⟩
  case h_4 h | h_5 h | h_7 h | h_8 h | h_13 h => exact ⟨rfl, packRI_of_fieldF (family h)⟩
  case h_6 h => exact decodeStrictRR_soundFor (f := 5) (family h) (by decide) fun _ _ => ⟨rfl, rfl⟩
  case h_9 h => exact decodeFamily8_soundFor (family h)
  case h_10 h => exact decodeStrictRR_soundFor (f := 9) (family h) (by decide) fun _ _ => ⟨rfl, rfl⟩
  case h_14 h => exact drw_of_fieldF (family h)
  case h_15 h => exact decodeFamilyE_soundFor (family h)
  case h_16 =>
    have := (fieldF w).isLt
    simp only [imp_false] at *
    have h : (fieldF w).toNat = 15 := by omega
    exact decodeFamilyF_soundFor (family h)

theorem decodeWord_insn {w : Word} {i : Instr} (h : decodeWord w = .insn i) : i.wf = true ∧ encode i = w :=
  (h ▸ decodeWord_soundFor w : (Decoded.insn i).SoundFor w)

/-- Settles O7: what `decodeWord_soundFor` says of an instruction. -/
theorem encodeOfDecodeIsTheWord : Obligations.EncodeOfDecodeIsTheWord :=
  fun _ _ h => decodeWord_insn h

/-! ## The opcode table (O8) -/

/-- The word of every instruction matches its row (R106). -/
theorem row_matches_encode : ∀ i : Instr, i.row.matches (encode i) = true
  | .cls => Laws.RowMatch.cls
  | .ret => Laws.RowMatch.ret
  | .jp nnn => Laws.RowMatch.jp nnn
  | .call nnn => Laws.RowMatch.call nnn
  | .seImm x nn => Laws.RowMatch.seImm x nn
  | .sneImm x nn => Laws.RowMatch.sneImm x nn
  | .seReg x y => Laws.RowMatch.seReg x y
  | .ldImm x nn => Laws.RowMatch.ldImm x nn
  | .addImm x nn => Laws.RowMatch.addImm x nn
  | .ldReg x y => Laws.RowMatch.ldReg x y
  | .orReg x y => Laws.RowMatch.orReg x y
  | .andReg x y => Laws.RowMatch.andReg x y
  | .xorReg x y => Laws.RowMatch.xorReg x y
  | .addReg x y => Laws.RowMatch.addReg x y
  | .subReg x y => Laws.RowMatch.subReg x y
  | .shr x y => Laws.RowMatch.shr x y
  | .subnReg x y => Laws.RowMatch.subnReg x y
  | .shl x y => Laws.RowMatch.shl x y
  | .sneReg x y => Laws.RowMatch.sneReg x y
  | .ldI nnn => Laws.RowMatch.ldI nnn
  | .jpV0 nnn => Laws.RowMatch.jpV0 nnn
  | .rnd x nn => Laws.RowMatch.rnd x nn
  | .drw x y n => Laws.RowMatch.drw x y n
  | .skp x => Laws.RowMatch.skp x
  | .sknp x => Laws.RowMatch.sknp x
  | .ldVxDt x => Laws.RowMatch.ldVxDt x
  | .ldVxK x => Laws.RowMatch.ldVxK x
  | .ldDtVx x => Laws.RowMatch.ldDtVx x
  | .ldStVx x => Laws.RowMatch.ldStVx x
  | .addI x => Laws.RowMatch.addI x
  | .ldF x => Laws.RowMatch.ldF x
  | .ldB x => Laws.RowMatch.ldB x
  | .storeRegs x => Laws.RowMatch.storeRegs x
  | .loadRegs x => Laws.RowMatch.loadRegs x

theorem row_matches_of_decodeWord {w : Word} {i : Instr} (h : decodeWord w = .insn i) : i.row.matches w = true := by
  obtain ⟨-, rfl⟩ := decodeWord_insn h
  exact row_matches_encode i

/-! ### What a mask fixes of a word -/

section
variable {w : Word} {name : String} {f : BitVec 4}

/-- A row of mask F000 fixes the family. -/
theorem fieldF_of_matches (h : OpcodeRow.matches ⟨name, 0xF000, packA f 0⟩ w = true) : fieldF w = f := by
  have hw : packA (fieldF w) (fieldNNN w) &&& 0xF000#16 = packA f 0 := by rw [packA_fields]; exact eq_of_beq h
  rw [Laws.packA_masked] at hw
  simpa using congrArg fieldF hw

/-- A row of mask F00F fixes the family and the low nibble. -/
theorem fieldF_fieldN_of_matches {n : BitVec 4} (h : OpcodeRow.matches ⟨name, 0xF00F, packRR f 0 0 n⟩ w = true) :
    fieldF w = f ∧ fieldN w = n := by
  have hw : packRR (fieldF w) (fieldX w) (fieldY w) (fieldN w) &&& 0xF00F#16 = packRR f 0 0 n := by
    rw [packRR_fields]; exact eq_of_beq h
  rw [Laws.packRR_masked] at hw
  exact ⟨by simpa using congrArg fieldF hw, by simpa using congrArg fieldN hw⟩

/-- A row of mask F0FF fixes the family and the low byte. -/
theorem fieldF_fieldNN_of_matches {nn : Byte} (h : OpcodeRow.matches ⟨name, 0xF0FF, packRI f 0 nn⟩ w = true) :
    fieldF w = f ∧ fieldNN w = nn := by
  have hw : packRI (fieldF w) (fieldX w) (fieldNN w) &&& 0xF0FF#16 = packRI f 0 nn := by
    rw [packRI_fields]; exact eq_of_beq h
  rw [Laws.packRI_masked] at hw
  exact ⟨by simpa using congrArg fieldF hw, by simpa using congrArg fieldNN hw⟩

/-- A row of mask FFFF fixes the whole word. -/
theorem eq_of_matches {p : Word} (h : OpcodeRow.matches ⟨name, 0xFFFF, p⟩ w = true) : p = w := by
  have hw : w &&& BitVec.allOnes 16 = p := eq_of_beq h
  rw [BitVec.and_allOnes] at hw
  exact hw.symm

theorem packA_of_matches (f : BitVec 4) (h : OpcodeRow.matches ⟨name, 0xF000, packA f 0⟩ w = true) :
    packA f (fieldNNN w) = w := packA_of_fieldF (fieldF_of_matches h)

theorem packRI_of_matches_family (f : BitVec 4) (h : OpcodeRow.matches ⟨name, 0xF000, packA f 0⟩ w = true) :
    packRI f (fieldX w) (fieldNN w) = w := packRI_of_fieldF (fieldF_of_matches h)

theorem packRR_of_matches (f n : BitVec 4) (h : OpcodeRow.matches ⟨name, 0xF00F, packRR f 0 0 n⟩ w = true) :
    packRR f (fieldX w) (fieldY w) n = w :=
  have ⟨hf, hn⟩ := fieldF_fieldN_of_matches h
  packRR_of_fields hf hn

theorem packRI_of_matches (f : BitVec 4) (nn : Byte) (h : OpcodeRow.matches ⟨name, 0xF0FF, packRI f 0 nn⟩ w = true) :
    packRI f (fieldX w) nn = w :=
  have ⟨hf, hnn⟩ := fieldF_fieldNN_of_matches h
  packRI_of_fields hf hnn

end

/-- A word that matches a row is the word of the instruction of that row with the word's own fields as its operands. -/
theorem encode_of_row_matches {w : Word} :
    ∀ i : Instr, i.row.matches w = true → ∃ j, j.wf = true ∧ encode j = w ∧ j.row = i.row
  | .cls, h => ⟨.cls, rfl, eq_of_matches h, rfl⟩
  | .ret, h => ⟨.ret, rfl, eq_of_matches h, rfl⟩
  | .jp _, h => ⟨.jp (fieldNNN w), rfl, packA_of_matches 1 h, rfl⟩
  | .call _, h => ⟨.call (fieldNNN w), rfl, packA_of_matches 2 h, rfl⟩
  | .seImm _ _, h => ⟨.seImm (fieldX w) (fieldNN w), rfl, packRI_of_matches_family 3 h, rfl⟩
  | .sneImm _ _, h => ⟨.sneImm (fieldX w) (fieldNN w), rfl, packRI_of_matches_family 4 h, rfl⟩
  | .seReg _ _, h => ⟨.seReg (fieldX w) (fieldY w), rfl, packRR_of_matches 5 0 h, rfl⟩
  | .ldImm _ _, h => ⟨.ldImm (fieldX w) (fieldNN w), rfl, packRI_of_matches_family 6 h, rfl⟩
  | .addImm _ _, h => ⟨.addImm (fieldX w) (fieldNN w), rfl, packRI_of_matches_family 7 h, rfl⟩
  | .ldReg _ _, h => ⟨.ldReg (fieldX w) (fieldY w), rfl, packRR_of_matches 8 0 h, rfl⟩
  | .orReg _ _, h => ⟨.orReg (fieldX w) (fieldY w), rfl, packRR_of_matches 8 1 h, rfl⟩
  | .andReg _ _, h => ⟨.andReg (fieldX w) (fieldY w), rfl, packRR_of_matches 8 2 h, rfl⟩
  | .xorReg _ _, h => ⟨.xorReg (fieldX w) (fieldY w), rfl, packRR_of_matches 8 3 h, rfl⟩
  | .addReg _ _, h => ⟨.addReg (fieldX w) (fieldY w), rfl, packRR_of_matches 8 4 h, rfl⟩
  | .subReg _ _, h => ⟨.subReg (fieldX w) (fieldY w), rfl, packRR_of_matches 8 5 h, rfl⟩
  | .shr _ _, h => ⟨.shr (fieldX w) (fieldY w), rfl, packRR_of_matches 8 6 h, rfl⟩
  | .subnReg _ _, h => ⟨.subnReg (fieldX w) (fieldY w), rfl, packRR_of_matches 8 7 h, rfl⟩
  | .shl _ _, h => ⟨.shl (fieldX w) (fieldY w), rfl, packRR_of_matches 8 0xE h, rfl⟩
  | .sneReg _ _, h => ⟨.sneReg (fieldX w) (fieldY w), rfl, packRR_of_matches 9 0 h, rfl⟩
  | .ldI _, h => ⟨.ldI (fieldNNN w), rfl, packA_of_matches 0xA h, rfl⟩
  | .jpV0 _, h => ⟨.jpV0 (fieldNNN w), rfl, packA_of_matches 0xB h, rfl⟩
  | .rnd _ _, h => ⟨.rnd (fieldX w) (fieldNN w), rfl, packRI_of_matches_family 0xC h, rfl⟩
  | .drw _ _ _, h =>
    have ⟨hwf, hword⟩ := drw_of_fieldF (fieldF_of_matches (f := 0xD) h)
    ⟨.drw (fieldX w) (fieldY w) (fieldN w).toNat, hwf, hword, rfl⟩
  | .skp _, h => ⟨.skp (fieldX w), rfl, packRI_of_matches 0xE 0x9E h, rfl⟩
  | .sknp _, h => ⟨.sknp (fieldX w), rfl, packRI_of_matches 0xE 0xA1 h, rfl⟩
  | .ldVxDt _, h => ⟨.ldVxDt (fieldX w), rfl, packRI_of_matches 0xF 0x07 h, rfl⟩
  | .ldVxK _, h => ⟨.ldVxK (fieldX w), rfl, packRI_of_matches 0xF 0x0A h, rfl⟩
  | .ldDtVx _, h => ⟨.ldDtVx (fieldX w), rfl, packRI_of_matches 0xF 0x15 h, rfl⟩
  | .ldStVx _, h => ⟨.ldStVx (fieldX w), rfl, packRI_of_matches 0xF 0x18 h, rfl⟩
  | .addI _, h => ⟨.addI (fieldX w), rfl, packRI_of_matches 0xF 0x1E h, rfl⟩
  | .ldF _, h => ⟨.ldF (fieldX w), rfl, packRI_of_matches 0xF 0x29 h, rfl⟩
  | .ldB _, h => ⟨.ldB (fieldX w), rfl, packRI_of_matches 0xF 0x33 h, rfl⟩
  | .storeRegs _, h => ⟨.storeRegs (fieldX w), rfl, packRI_of_matches 0xF 0x55 h, rfl⟩
  | .loadRegs _, h => ⟨.loadRegs (fieldX w), rfl, packRI_of_matches 0xF 0x65 h, rfl⟩

/-- Settles O8: a decoded word is an encoded one and matches its row; a word that matches a row is an encoded one of that
row and decodes back. -/
theorem decoderAgreesWithTheOpcodeTable : Obligations.DecoderAgreesWithTheOpcodeTable := by
  intro w i
  refine ⟨row_matches_of_decodeWord, fun h => ?_⟩
  obtain ⟨j, hwf, rfl, hrow⟩ := encode_of_row_matches i h
  exact ⟨j, decodeWord_encode hwf, hrow⟩

/-! ## Words outside the table (O9, O10) -/

section
variable {w : Word}

theorem decodeWord_of_family0 (hf : fieldF w = 0) : decodeWord w = decodeFamily0 w := by simp [decodeWord, hf]

theorem decodeWord_of_family5 (hf : fieldF w = 5) : decodeWord w = decodeStrictRR .seReg w := by simp [decodeWord, hf]

theorem decodeWord_of_family8 (hf : fieldF w = 8) : decodeWord w = decodeFamily8 w := by simp [decodeWord, hf]

theorem decodeWord_of_family9 (hf : fieldF w = 9) : decodeWord w = decodeStrictRR .sneReg w := by simp [decodeWord, hf]

theorem decodeWord_of_familyE (hf : fieldF w = 0xE) : decodeWord w = decodeFamilyE w := by simp [decodeWord, hf]

theorem decodeWord_of_familyF (hf : fieldF w = 0xF) : decodeWord w = decodeFamilyF w := by simp [decodeWord, hf]

theorem decodeFamily0_eq_fault (hcls : w.toNat ≠ 0x00E0) (hret : w.toNat ≠ 0x00EE) : decodeFamily0 w = .decodeFault := by
  simp [decodeFamily0, ← BitVec.toNat_inj, hcls, hret]

theorem decodeStrictRR_eq_fault (build : RegId → RegId → Instr) (hn : w.toNat % 16 ≠ 0) :
    decodeStrictRR build w = .decodeFault := by
  simp [decodeStrictRR, ← BitVec.toNat_inj, fieldN_toNat, hn]

theorem decodeFamilyE_eq_fault (hnn : w.toNat % 256 ∉ [0x9E, 0xA1]) : decodeFamilyE w = .decodeFault := by
  simp only [List.mem_cons, List.not_mem_nil, or_false, not_or] at hnn
  simp [decodeFamilyE, ← BitVec.toNat_inj, fieldNN_toNat, hnn]

theorem decodeFamilyF_eq_fault (hnn : w.toNat % 256 ∉ [0x07, 0x0A, 0x15, 0x18, 0x1E, 0x29, 0x33, 0x55, 0x65]) :
    decodeFamilyF w = .decodeFault := by
  simp only [List.mem_cons, List.not_mem_nil, or_false, not_or] at hnn
  simp [decodeFamilyF, ← BitVec.toNat_inj, fieldNN_toNat, hnn]

theorem decodeFamily8_eq_fault (hn : w.toNat % 16 ∈ [0x8, 0x9, 0xA, 0xB, 0xC, 0xD, 0xF]) :
    decodeFamily8 w = .selectorFault := by
  simp only [List.mem_cons, List.not_mem_nil, or_false] at hn
  obtain hn | hn | hn | hn | hn | hn | hn := hn <;> simp [decodeFamily8, ← BitVec.toNat_inj, fieldN_toNat, hn]

end

namespace Machine

/-- The cycle passes over a word of no instruction: one report with `pc` and the word, pc + 2, nothing else (R100, R263). -/
def ReportsAndPasses (cause : FaultCause) (s : State) : Prop :=
  ∃ t, cycle s = .next t ∧ t.faults = s.faults ++ [⟨cause, s.pc, s.fetchWord⟩] ∧ NextPc 2 s t ∧
    OnlyChanges [.pc, .faults] s t

theorem onlyChanges_takeFault (s : State) (cause : FaultCause) (w : Word) :
    OnlyChanges [.pc, .faults] s (s.takeFault cause w) := by
  intro p hp
  cases p with
  | pc | faults => simp at hp
  | _ => simp [Part.same, State.takeFault]

theorem reportsAndPasses_of_cycle {cause : FaultCause} {s : State}
    (h : cycle s = .next (s.takeFault cause s.fetchWord)) : ReportsAndPasses cause s :=
  ⟨_, h, rfl, nextPc_of_advance s rfl, onlyChanges_takeFault s cause s.fetchWord⟩

section
variable {s : State}

theorem cycle_of_insn {i : Instr} (h : decodeWord s.fetchWord = .insn i) : cycle s = exec i s := by
  simp only [cycle, h]

theorem reportsAndPasses_decode (h : decodeWord s.fetchWord = .decodeFault) : ReportsAndPasses .decode s :=
  reportsAndPasses_of_cycle (by simp only [cycle, h, State.decodeFault])

theorem reportsAndPasses_arithSelector (h : decodeWord s.fetchWord = .selectorFault) : ReportsAndPasses .arithSelector s :=
  reportsAndPasses_of_cycle (by simp only [cycle, h, State.selectorFault])

end

theorem fieldF_eq_iff (w : Word) (f : BitVec 4) : fieldF w = f ↔ w.toNat / 4096 = f.toNat := by
  rw [← BitVec.toNat_inj, fieldF_toNat]

/-- Settles O9: a word that decodes matches a row, so this one is one of the two faults, told apart by the family. -/
theorem wordThatMatchesNoRowIsReportedAndPassed : Obligations.WordThatMatchesNoRowIsReportedAndPassed := by
  intro s hnone
  have family8 : fieldF s.fetchWord = 8 ↔ s.fetchWord.toNat / 4096 = 8 := fieldF_eq_iff _ 8
  have hsound := decodeWord_soundFor s.fetchWord
  cases hd : decodeWord s.fetchWord with
  | insn i => exact absurd (row_matches_of_decodeWord hd) (by simp [hnone i])
  | decodeFault =>
    rw [hd] at hsound
    rw [if_neg (mt family8.mpr hsound)]
    exact reportsAndPasses_decode hd
  | selectorFault =>
    rw [hd] at hsound
    rw [if_pos (family8.mp hsound)]
    exact reportsAndPasses_arithSelector hd

/-- Settles O10: the answer of each family's decoder outside its rows. -/
theorem undefinedWordsOfEachFamilyAreReported : Obligations.UndefinedWordsOfEachFamilyAreReported := by
  rintro s _ _ rfl rfl
  have family {f : BitVec 4} (h : s.fetchWord.toNat / 4096 = f.toNat) : fieldF s.fetchWord = f :=
    (fieldF_eq_iff _ f).mpr h
  refine ⟨fun h => reportsAndPasses_decode ?_, fun ⟨hf, hn⟩ => reportsAndPasses_arithSelector ?_⟩
  · obtain ⟨hf, hcls, hret⟩ | ⟨hf | hf, hn⟩ | ⟨hf, hnn⟩ | ⟨hf, hnn⟩ := h
    · exact (decodeWord_of_family0 (family hf)).trans (decodeFamily0_eq_fault hcls hret)
    · exact (decodeWord_of_family5 (family hf)).trans (decodeStrictRR_eq_fault _ hn)
    · exact (decodeWord_of_family9 (family hf)).trans (decodeStrictRR_eq_fault _ hn)
    · exact (decodeWord_of_familyE (family hf)).trans (decodeFamilyE_eq_fault hnn)
    · exact (decodeWord_of_familyF (family hf)).trans (decodeFamilyF_eq_fault hnn)
  · exact (decodeWord_of_family8 (family hf)).trans (decodeFamily8_eq_fault hn)

/-! ## Sample words, and the step around the cycle (O5, O12) -/

/-- Settles O5, by evaluating the decoder on each word. -/
theorem sampleWordsDecodeAsTheTableSays : Obligations.SampleWordsDecodeAsTheTableSays := by
  unfold Obligations.SampleWordsDecodeAsTheTableSays
  decide

theorem step_of_insn {s t : State} {i : Instr} (hd : decodeWord s.beginStep.fetchWord = .insn i)
    (he : exec i s.beginStep = .next t) : step s = .next t.endStep := by
  rw [step, cycle_of_insn hd, he]
  rfl

/-- Settles O12: `step_of_insn`; with an empty agenda neither end of the step adds anything. -/
theorem stepRunsTheDecodedInstruction : Obligations.StepRunsTheDecodedInstruction := by
  refine ⟨fun s i t => step_of_insn, fun s i t hempty hd he => ?_⟩
  have hend : t.endStep = t := State.endStep_of_no_agenda ((exec_key_agenda he).2.trans hempty)
  rw [← State.beginStep_of_no_agenda hempty] at hd he
  rw [step_of_insn hd he, hend]

end Machine
end Sys2Proof

/-! SUPPORT. Control flow and direct loads (spec/40_control_flow.md R130 to R143): the frames of the updates these instructions
are built from, the common forms of their results, and the obligations about them. -/

namespace Sys2Proof

/-! ## Words by their hexadecimal pattern -/

theorem decodeWord_of_eq_encode {w : Word} {i : Instr} (hw : w = encode i) (hwf : i.wf = true) :
    decodeWord w = .insn i := hw ▸ decodeWord_encode hwf

namespace Machine

theorem fieldF_wordXYN {f : BitVec 4} {base n : Nat} (hb : base = f.toNat * 4096) (x y : RegId) (hn : n < 16) :
    fieldF (wordXYN base x y n) = f := by
  rw [wordXYN_eq f base hb x y n hn, fieldF_packRR]

theorem wordXYN_mod_sixteen {f : BitVec 4} {base n : Nat} (hb : base = f.toNat * 4096) (x y : RegId) (hn : n < 16) :
    (wordXYN base x y n).toNat % 16 = n := by
  rw [← fieldN_toNat, wordXYN_eq f base hb x y n hn, fieldN_packRR, BitVec.toNat_ofNat, Nat.mod_eq_of_lt hn]

/-- Families 5 and 9 are strict: a low nibble other than 0 is a decode fault (R107, D11). -/
theorem decodeWord_wordXYN_fault {f : BitVec 4} (hf : f = 5 ∨ f = 9) (x y : RegId) {n : Nat} (h0 : 0 < n) (hn : n < 16) :
    decodeWord (wordXYN (f.toNat * 4096) x y n) = .decodeFault := by
  have hfam := fieldF_wordXYN (f := f) rfl x y hn
  have hnib : (wordXYN (f.toNat * 4096) x y n).toNat % 16 ≠ 0 := by
    rw [wordXYN_mod_sixteen rfl x y hn]; exact h0.ne'
  obtain rfl | rfl := hf
  · exact (decodeWord_of_family5 hfam).trans (decodeStrictRR_eq_fault _ hnib)
  · exact (decodeWord_of_family9 hfam).trans (decodeStrictRR_eq_fault _ hnib)

/-! ## Frames: one lemma per update, and their composition -/

theorem Part.same_trans {p : Part} {s t u : State} (h₁ : p.same s t) (h₂ : p.same t u) : p.same s u := by
  cases p with
  | regs | mem => exact fun a => (h₂ a).trans (h₁ a)
  | fb => exact fun q c => (h₂ q c).trans (h₁ q c)
  | _ => exact Eq.trans h₂ h₁

theorem OnlyChanges.trans {ps qs : List Part} {s t u : State} (h₁ : OnlyChanges ps s t) (h₂ : OnlyChanges qs t u) :
    OnlyChanges (ps ++ qs) s u := by
  intro p hp
  rw [List.mem_append, not_or] at hp
  exact Part.same_trans (h₁ p hp.1) (h₂ p hp.2)

section
variable (s : State)

theorem onlyChanges_setPc (a : Word) : OnlyChanges [.pc] s (s.setPc a) := by
  intro p hp
  cases p with
  | pc => exact absurd List.mem_cons_self hp
  | _ => simp [Part.same]

theorem onlyChanges_skipIf (c : Bool) : OnlyChanges [.pc] s (s.skipIf c) := by
  rw [State.skipIf_eq]
  exact onlyChanges_setPc s _

theorem onlyChanges_setReg (x : RegId) (b : Byte) : OnlyChanges [.regs] s (s.setReg x b) := by
  intro p hp
  cases p with
  | regs => exact absurd List.mem_cons_self hp
  | _ => simp [Part.same]

theorem onlyChanges_setIndex (a : Word) : OnlyChanges [.index] s (s.setIndex a) := by
  intro p hp
  cases p with
  | index => exact absurd List.mem_cons_self hp
  | _ => simp [Part.same]

theorem onlyChanges_withFb (fb : Framebuffer) : OnlyChanges [.fb] s { s with fb := fb } := by
  intro p hp
  cases p with
  | fb => exact absurd List.mem_cons_self hp
  | _ => simp [Part.same, State.reg, State.read]

theorem onlyChanges_withSp (sp : Fin 17) : OnlyChanges [.sp] s { s with sp := sp } := by
  intro p hp
  cases p with
  | sp => exact absurd List.mem_cons_self hp
  | _ => simp [Part.same, State.reg, State.read, State.pixel]

theorem onlyChanges_withStack (stack : Vector Word 16) : OnlyChanges [.stack] s { s with stack := stack } := by
  intro p hp
  cases p with
  | stack => exact absurd List.mem_cons_self hp
  | _ => simp [Part.same, State.reg, State.read, State.pixel]

theorem onlyChanges_withSpStack (sp : Fin 17) (stack : Vector Word 16) :
    OnlyChanges [.sp, .stack] s { s with sp := sp, stack := stack } :=
  (onlyChanges_withSp s sp).trans (onlyChanges_withStack _ stack)

theorem onlyChanges_withDraws (n : Nat) : OnlyChanges [.draws] s { s with draws := n } := by
  intro p hp
  cases p with
  | draws => exact absurd List.mem_cons_self hp
  | _ => simp [Part.same, State.reg, State.read, State.pixel]

end

theorem OnlyChanges.advance {ps : List Part} {s t : State} (h : OnlyChanges ps s t) :
    OnlyChanges (ps ++ [.pc]) s t.advance := h.trans (onlyChanges_setPc t _)

/-! ## Operands as addresses -/

theorem byteOperand_toNat (b : Byte) : (byteOperand b).toNat = b.toNat :=
  BitVec.toNat_setWidth_of_le (by decide)

theorem State.setPc_addrOperand_pc_toNat (nnn : Addr) (s : State) : (s.setPc (addrOperand nnn)).pc.toNat = nnn.toNat := by
  rw [State.setPc_pc_toNat, addrOperand_toNat, Nat.mod_eq_of_lt nnn.isLt]

/-! ## The forms of a result -/

section
variable {i : Instr} {s : State}

/-- A fault that prevents the instruction (R263, R266). -/
theorem reports_of_exec_takeFault {cause : FaultCause} {w : Word} (h : exec i s = .next (s.takeFault cause w)) :
    ∃ t, exec i s = .next t ∧ t.faults = s.faults ++ [⟨cause, s.pc, w⟩] ∧ NextPc 2 s t ∧
      OnlyChanges [.pc, .faults] s t :=
  ⟨_, h, rfl, nextPc_of_advance s rfl, onlyChanges_takeFault s cause w⟩

/-- One register written, then on to the next word. -/
theorem setsReg_of_exec {x : RegId} {b : Byte} (h : exec i s = .next (s.setReg x b).advance) :
    ∃ t, exec i s = .next t ∧ t.reg x = b ∧ RegsKept [x] s t ∧ NextPc 2 s t ∧ OnlyChanges [.regs, .pc] s t :=
  ⟨_, h, reg_of_setReg s x b rfl, regsKept_of_setReg s x b rfl, nextPc_of_advance s rfl,
    (onlyChanges_setReg s x b).advance⟩

/-- A skip when two bytes are equal. -/
theorem skips_of_exec_beq {a b : Byte} (h : exec i s = .next (s.skipIf (a == b))) :
    ∃ t, exec i s = .next t ∧ NextPc (if a.toNat = b.toNat then 4 else 2) s t ∧ OnlyChanges [.pc] s t :=
  ⟨_, h, nextPc_of_skipIf s _ (by simp [BitVec.toNat_inj]), onlyChanges_skipIf s _⟩

/-- A skip when two bytes differ. -/
theorem skips_of_exec_bne {a b : Byte} (h : exec i s = .next (s.skipIf (a != b))) :
    ∃ t, exec i s = .next t ∧ NextPc (if a.toNat = b.toNat then 2 else 4) s t ∧ OnlyChanges [.pc] s t :=
  ⟨_, h, nextPc_of_skipIf s _ (by simp [BitVec.toNat_inj]), onlyChanges_skipIf s _⟩

end

/-! ## A return after a call (O25) -/

/-- A return undoes all of a call but the slot it wrote, and goes on at the word after it. -/
theorem exec_ret_of_exec_call {nnn : Addr} {s t : State} (hsp : s.sp.val < 16) (hc : exec (.call nnn) s = .next t) :
    exec .ret t = .next { s with stack := s.stack.set s.sp.val s.pc }.advance := by
  rw [exec_call_of_sp_lt nnn s hsp] at hc
  cases hc
  rw [exec_ret_of_sp_pos _ (Nat.succ_pos _)]
  simp [State.advance, State.setPc]

/-- Settles O25: `exec_ret_of_exec_call`, whose state differs from the one before the call in the slot and `pc`. -/
theorem returnUndoesCall : Obligations.ReturnUndoesCall := by
  intro nnn s t u hsp hcall hret
  cases (exec_ret_of_exec_call hsp hcall).symm.trans hret
  exact ⟨rfl, nextPc_of_advance s rfl, (onlyChanges_withStack s _).advance⟩

/-! ## CLS, RET, JP and CALL (O21 to O24) -/

/-- Settles O21: every pixel of the new framebuffer is 0, and the pc alone is written after it. -/
theorem clearDisplayZeroesEveryPixel : Obligations.ClearDisplayZeroesEveryPixel :=
  ⟨decodeWord_of_eq_encode (i := .cls) rfl rfl, fun s =>
    ⟨_, rfl, fun q c => by simp [State.pixel], nextPc_of_advance s rfl, (onlyChanges_withFb s _).advance⟩⟩

/-- Settles O22: an equation of RET for SP above 0, and one for SP = 0. -/
theorem returnPopsOrReportsUnderflow : Obligations.ReturnPopsOrReportsUnderflow := by
  refine ⟨decodeWord_of_eq_encode (i := .ret) rfl rfl, fun s => ⟨fun h => ?_, fun h => ?_⟩⟩
  · refine ⟨_, exec_ret_of_sp_pos s h, rfl, ?_, (onlyChanges_withSp s _).trans (onlyChanges_setPc _ _)⟩
    rw [State.setPc_pc_toNat, BitVec.toNat_add]
    exact Nat.mod_mod_of_dvd _ (by decide)
  · exact reports_of_exec_takeFault (exec_ret_of_sp_zero s h)

/-- Settles O23: the operand is below 4096, so the mask on `pc` keeps it. -/
theorem jumpGoesToItsAddress : Obligations.JumpGoesToItsAddress := fun nnn =>
  ⟨decodeWord_of_eq_encode (wordNNN_eq 1 _ rfl nnn) rfl, fun s =>
    ⟨_, rfl, State.setPc_addrOperand_pc_toNat nnn s, onlyChanges_setPc s _⟩⟩

/-- Settles O24: an equation of CALL for SP below 16, and one for SP = 16. -/
theorem callPushesOrReportsOverflow : Obligations.CallPushesOrReportsOverflow := by
  intro nnn
  have hw : wordNNN 0x2000 nnn = encode (.call nnn) := wordNNN_eq 2 _ rfl nnn
  refine ⟨decodeWord_of_eq_encode hw rfl, fun s => ⟨fun h => ?_, fun h => ?_⟩⟩
  · refine ⟨_, exec_call_of_sp_lt nnn s h, rfl, by simp, fun k hk => ?_, State.setPc_addrOperand_pc_toNat nnn _,
      (onlyChanges_withSpStack s _ _).trans (onlyChanges_setPc _ _)⟩
    simp [Vector.getElem_set_ne, hk.symm]
  · rw [hw]
    exact reports_of_exec_takeFault (exec_call_of_sp_full nnn s h)

/-! ## The skips (O26, O27) -/

/-- Settles O26: two uses of the skip forms, with an immediate for the second byte. -/
theorem skipComparesRegisterAndImmediate : Obligations.SkipComparesRegisterAndImmediate := fun x nn =>
  ⟨decodeWord_of_eq_encode (wordXNN_eq 3 _ rfl x nn) rfl, decodeWord_of_eq_encode (wordXNN_eq 4 _ rfl x nn) rfl,
    fun _ => ⟨skips_of_exec_beq rfl, skips_of_exec_bne rfl⟩⟩

/-- Settles O27: the skip forms, with a register for the second byte, and the strict low nibble. -/
theorem skipComparesTwoRegisters : Obligations.SkipComparesTwoRegisters := fun x y =>
  ⟨decodeWord_of_eq_encode (wordXY_eq 5 0 _ rfl x y) rfl, decodeWord_of_eq_encode (wordXY_eq 9 0 _ rfl x y) rfl,
    fun _ h0 hn => ⟨decodeWord_wordXYN_fault (f := 5) (.inl rfl) x y h0 hn,
      decodeWord_wordXYN_fault (f := 9) (.inr rfl) x y h0 hn⟩,
    fun _ => ⟨skips_of_exec_beq rfl, skips_of_exec_bne rfl⟩⟩

/-! ## Direct loads, the offset jump and the random byte (O28 to O32) -/

/-- Settles O28: one register written, whichever `x` is. -/
theorem loadImmediateSetsTheRegister : Obligations.LoadImmediateSetsTheRegister := fun x nn =>
  ⟨decodeWord_of_eq_encode (wordXNN_eq 6 _ rfl x nn) rfl, fun _ => setsReg_of_exec rfl⟩

/-- Settles O29: the sum of two bytes is their sum modulo 256. -/
theorem addImmediateWrapsWithoutFlag : Obligations.AddImmediateWrapsWithoutFlag := by
  refine fun x nn => ⟨decodeWord_of_eq_encode (wordXNN_eq 7 _ rfl x nn) rfl, fun s => ?_⟩
  obtain ⟨t, he, hreg, hframe⟩ := setsReg_of_exec (i := .addImm x nn) (s := s) rfl
  exact ⟨t, he, by rw [hreg, BitVec.toNat_add], hframe⟩

/-- Settles O30: the operand as it is, with no mask. -/
theorem loadIndexSetsTheIndex : Obligations.LoadIndexSetsTheIndex := fun nnn =>
  ⟨decodeWord_of_eq_encode (wordNNN_eq 0xA _ rfl nnn) rfl, fun s =>
    ⟨_, rfl, addrOperand_toNat nnn, nextPc_of_advance s rfl, (onlyChanges_setIndex s _).advance⟩⟩

/-- Settles O31: the 16-bit sum does not wrap before the write of `pc` masks it. -/
theorem jumpWithOffsetAddsV0 : Obligations.JumpWithOffsetAddsV0 := by
  refine fun nnn => ⟨decodeWord_of_eq_encode (wordNNN_eq 0xB _ rfl nnn) rfl, fun s =>
    ⟨_, rfl, ?_, onlyChanges_setPc s _⟩⟩
  rw [State.setPc_pc_toNat, BitVec.toNat_add, addrOperand_toNat, byteOperand_toNat]
  exact Nat.mod_mod_of_dvd _ (by decide)

/-- Settles O32: one register written with the masked draw; the count of draws is the last update of the frame. -/
theorem randomAndMasksOneDraw : Obligations.RandomAndMasksOneDraw := by
  refine fun x nn => ⟨decodeWord_of_eq_encode (wordXNN_eq 0xC _ rfl x nn) rfl, fun s => ?_⟩
  refine ⟨_, rfl, fun i _ => ?_, regsKept_of_setReg s x _ rfl, nextPc_of_advance s rfl, ?_⟩
  · simp [State.drawByte]
  · exact (onlyChanges_setReg s x _).trans ((onlyChanges_setPc _ _).trans (onlyChanges_withDraws _ _))

end Machine
end Sys2Proof

/-! SUPPORT. The arithmetic and logic group, family 8 (spec/41_alu.md R170 to R181): the values of its results and flags, its
two common forms, and the obligations about them. -/

namespace Sys2Proof.Machine

/-! ## The values of a result and of a flag -/

theorem toNat_sub_byte (a b : Byte) : (a - b).toNat = (a.toNat + 256 - b.toNat) % 256 := by
  have := b.isLt
  rw [BitVec.toNat_sub]
  omega

theorem flagByte_decide (p : Prop) [Decidable p] : flagByte (decide p) = if p then 1 else 0 := by
  simp [flagByte]

theorem flagByte_toNat (c : Bool) : (flagByte c).toNat = c.toNat := by cases c <;> rfl

theorem shrFlag_toNat (a : Byte) : (shrFlag a).toNat = a.toNat % 2 := by
  rw [shrFlag, BitVec.getLsbD, Nat.toNat_testBit, Nat.pow_zero, Nat.div_one]

theorem shlFlag_toNat (a : Byte) : (shlFlag a).toNat = a.toNat / 128 := by
  have := a.isLt
  rw [shlFlag, BitVec.getLsbD, Nat.toNat_testBit]
  omega

/-! ## The forms of a result -/

theorem OnlyChanges.mono {ps qs : List Part} {s t : State} (h : OnlyChanges ps s t) (hsub : ps ⊆ qs) :
    OnlyChanges qs s t :=
  fun p hp => h p fun hmem => hp (hsub hmem)

theorem onlyChanges_setReg_setFlag (s : State) (x : RegId) (b : Byte) (c : Bool) :
    OnlyChanges [.regs] s ((s.setReg x b).setFlag c) :=
  ((onlyChanges_setReg s x b).trans (onlyChanges_setReg _ VF _)).mono (by simp)

section
variable {i : Instr} {s : State} {x : RegId} {b : Byte}

/-- `setsReg_of_exec`, with the register's value given bit by bit. -/
theorem setsRegBits_of_exec {bit : Nat → Bool} (hb : ∀ k, k < 8 → b.getLsbD k = bit k)
    (h : exec i s = .next (s.setReg x b).advance) :
    ∃ t, exec i s = .next t ∧ (∀ k, k < 8 → (t.reg x).getLsbD k = bit k) ∧
      RegsKept [x] s t ∧ NextPc 2 s t ∧ OnlyChanges [.regs, .pc] s t := by
  obtain ⟨t, he, rfl, hframe⟩ := setsReg_of_exec h
  exact ⟨t, he, hb, hframe⟩

/-- A result of value `n` into the destination, then a flag into VF, which stays when both are one register (R31, R170). -/
theorem setsRegAndFlag_of_exec {c : Bool} {n : Nat} (hb : b.toNat = n)
    (h : exec i s = .next ((s.setReg x b).setFlag c).advance) :
    ∃ t, exec i s = .next t ∧ (x ≠ VF → (t.reg x).toNat = n) ∧ t.reg VF = flagByte c ∧
      RegsKept [x, VF] s t ∧ NextPc 2 s t ∧ OnlyChanges [.regs, .pc] s t := by
  obtain ⟨hres, hflag, hkept⟩ := regs_of_setReg_setFlag s x b c (t := ((s.setReg x b).setFlag c).advance) rfl
  exact ⟨_, h, fun hx => by rw [hres hx, hb], hflag, hkept, nextPc_of_advance s rfl,
    (onlyChanges_setReg_setFlag s x b c).advance⟩

/-- `setsRegAndFlag_of_exec`, with the flag given by the proposition it decides. -/
theorem setsRegAndFlag_of_exec_decide {p : Prop} [Decidable p] {n : Nat} (hb : b.toNat = n)
    (h : exec i s = .next ((s.setReg x b).setFlag (decide p)).advance) :
    ∃ t, exec i s = .next t ∧ (x ≠ VF → (t.reg x).toNat = n) ∧ t.reg VF = (if p then 1 else 0) ∧
      RegsKept [x, VF] s t ∧ NextPc 2 s t ∧ OnlyChanges [.regs, .pc] s t :=
  flagByte_decide p ▸ setsRegAndFlag_of_exec hb h

/-- `setsRegAndFlag_of_exec`, with the flag given by its value. -/
theorem setsRegAndFlag_of_exec_toNat {c : Bool} {n m : Nat} (hb : b.toNat = n) (hc : c.toNat = m)
    (h : exec i s = .next ((s.setReg x b).setFlag c).advance) :
    ∃ t, exec i s = .next t ∧ (x ≠ VF → (t.reg x).toNat = n) ∧ (t.reg VF).toNat = m ∧
      RegsKept [x, VF] s t ∧ NextPc 2 s t ∧ OnlyChanges [.regs, .pc] s t := by
  obtain ⟨t, he, hres, hflag, hframe⟩ := setsRegAndFlag_of_exec hb h
  exact ⟨t, he, hres, by rw [hflag, flagByte_toNat, hc], hframe⟩

end

/-! ## Without a flag (O34) -/

/-- Settles O34: one register written, whichever `x` and `y` are; the bits of each result are the library's. -/
theorem moveAndLogicActBitwiseWithoutFlag : Obligations.MoveAndLogicActBitwiseWithoutFlag := fun x y =>
  ⟨decodeWord_of_eq_encode (wordXY_eq 8 0 _ rfl x y) rfl, decodeWord_of_eq_encode (wordXY_eq 8 1 _ rfl x y) rfl,
    decodeWord_of_eq_encode (wordXY_eq 8 2 _ rfl x y) rfl, decodeWord_of_eq_encode (wordXY_eq 8 3 _ rfl x y) rfl,
    fun _ => ⟨setsReg_of_exec rfl, setsRegBits_of_exec (fun _ _ => BitVec.getLsbD_or) rfl,
      setsRegBits_of_exec (fun _ _ => BitVec.getLsbD_and) rfl, setsRegBits_of_exec (fun _ _ => BitVec.getLsbD_xor) rfl⟩⟩

/-! ## Sums and differences (O35 to O37) -/

/-- Settles O35: the sum of two bytes is their sum modulo 256, and the flag decides whether the exact sum exceeds 255. -/
theorem addSetsTheCarryFlag : Obligations.AddSetsTheCarryFlag := fun x y =>
  ⟨decodeWord_of_eq_encode (wordXY_eq 8 4 _ rfl x y) rfl, fun _ =>
    setsRegAndFlag_of_exec_decide (BitVec.toNat_add _ _) rfl⟩

/-- Settles O36: `toNat_sub_byte`, and the flag decides whether Vx is strictly greater. -/
theorem subtractSetsTheStrictFlag : Obligations.SubtractSetsTheStrictFlag := fun x y =>
  ⟨decodeWord_of_eq_encode (wordXY_eq 8 5 _ rfl x y) rfl, fun _ =>
    setsRegAndFlag_of_exec_decide (toNat_sub_byte _ _) rfl⟩

/-- Settles O37: `toNat_sub_byte` with the operands exchanged, in the difference and in the flag. -/
theorem subtractReverseSetsTheStrictFlag : Obligations.SubtractReverseSetsTheStrictFlag := fun x y =>
  ⟨decodeWord_of_eq_encode (wordXY_eq 8 7 _ rfl x y) rfl, fun _ =>
    setsRegAndFlag_of_exec_decide (toNat_sub_byte _ _) rfl⟩

/-! ## Shifts (O38, O39) -/

/-- Settles O38: a shift right by one halves; the bit it drops is the remainder (`shrFlag_toNat`). -/
theorem shiftRightHalvesInPlace : Obligations.ShiftRightHalvesInPlace := by
  refine fun x y => ⟨decodeWord_of_eq_encode (wordXY_eq 8 6 _ rfl x y) rfl, fun s => ?_⟩
  have hhalf : (s.reg x >>> 1).toNat = (s.reg x).toNat / 2 := by
    rw [BitVec.toNat_ushiftRight, Nat.shiftRight_eq_div_pow]
  exact setsRegAndFlag_of_exec_toNat hhalf (shrFlag_toNat (s.reg x)) rfl

/-- Settles O39: a shift left by one doubles modulo 256; the bit it drops is the quotient by 128 (`shlFlag_toNat`). -/
theorem shiftLeftDoublesInPlace : Obligations.ShiftLeftDoublesInPlace := by
  refine fun x y => ⟨decodeWord_of_eq_encode (wordXY_eq 8 0xE _ rfl x y) rfl, fun s => ?_⟩
  have hdouble : (s.reg x <<< 1).toNat = (s.reg x).toNat * 2 % 256 := by
    rw [BitVec.toNat_shiftLeft, Nat.shiftLeft_eq]
  exact setsRegAndFlag_of_exec_toNat hdouble (shlFlag_toNat (s.reg x)) rfl

end Sys2Proof.Machine

/-! SUPPORT. The sprite instruction (spec/42_sprite.md R200 to R205): what one draw leaves, what a second draw of the same
sprite covers, and the obligations about them. -/

namespace Sys2Proof.Machine

/-! ## The flag and its two writes -/

theorem flagByte_eq_one_or_zero (c : Bool) : flagByte c = 1 ∨ flagByte c = 0 := by cases c <;> decide

theorem flagByte_eq_one_iff (c : Bool) : flagByte c = 1 ↔ c = true := by cases c <;> decide

theorem State.setFlag_setFlag (s : State) (a b : Bool) : (s.setFlag a).setFlag b = s.setFlag b := by
  simp [State.setFlag, State.setReg]

/-! ## What a draw leaves -/

/-- The reset of VF is overwritten by the collision flag, so that a draw is one new framebuffer, one register and `pc`
(R200, R203). -/
theorem exec_drw_eq (x y : RegId) (n : Nat) (s : State) :
    exec (.drw x y n) s = .next ({ s with fb := (drawSprite s (s.reg x) (s.reg y) n).1 }.setFlag
      (drawSprite s (s.reg x) (s.reg y) n).2).advance :=
  congrArg (fun u : State => Host.Outcome.next u.advance)
    (State.setFlag_setFlag { s with fb := (drawSprite s (s.reg x) (s.reg y) n).1 } false _)

section
variable {x y : RegId} {n : Nat} {s t : State}

theorem exec_drw_reg_VF (he : exec (.drw x y n) s = .next t) :
    t.reg VF = flagByte (drawSprite s (s.reg x) (s.reg y) n).2 := by
  cases (exec_drw_eq x y n s).symm.trans he
  exact reg_of_setReg s VF _ rfl

/-- The collision, read in VF (R203). -/
theorem exec_drw_reg_VF_eq_one_iff (hn : n < 16) (he : exec (.drw x y n) s = .next t) :
    t.reg VF = 1 ↔ ∃ q c, SpriteCovers s (s.reg x) (s.reg y) n q c ∧ s.pixel q c = true := by
  rw [exec_drw_reg_VF he, flagByte_eq_one_iff, drawSprite_collide s _ _ n (by omega)]

/-- A draw toggles a covered cell and keeps every other (R203). -/
theorem exec_drw_pixel (hn : n < 16) (he : exec (.drw x y n) s = .next t) (q : RowId) (c : ColId) :
    (SpriteCovers s (s.reg x) (s.reg y) n q c → t.pixel q c = !s.pixel q c) ∧
      (¬SpriteCovers s (s.reg x) (s.reg y) n q c → t.pixel q c = s.pixel q c) := by
  cases (exec_drw_eq x y n s).symm.trans he
  exact drawSprite_pixel s _ _ n (by omega) q c

theorem exec_drw_frame (he : exec (.drw x y n) s = .next t) :
    RegsKept [VF] s t ∧ NextPc 2 s t ∧ OnlyChanges [.regs, .fb, .pc] s t := by
  cases (exec_drw_eq x y n s).symm.trans he
  exact ⟨regsKept_of_setReg s VF _ rfl, nextPc_of_advance s rfl,
    ((onlyChanges_withFb s _).trans (onlyChanges_setReg _ VF _)).advance.mono (by simp)⟩

/-! ## The same sprite again -/

theorem exec_drw_readAt (he : exec (.drw x y n) s = .next t) (k : Nat) : t.readAt k = s.readAt k := by
  cases (exec_drw_eq x y n s).symm.trans he
  rfl

/-- With an origin not in VF, the next draw of the sprite covers the same cells (R205). -/
theorem spriteCovers_after_exec_drw (hx : x ≠ VF) (hy : y ≠ VF) (he : exec (.drw x y n) s = .next t) (q : RowId)
    (c : ColId) :
    SpriteCovers t (t.reg x) (t.reg y) n q c ↔ SpriteCovers s (s.reg x) (s.reg y) n q c := by
  obtain ⟨hregs, -⟩ := exec_drw_frame he
  rw [hregs x (by simpa using hx), hregs y (by simpa using hy)]
  simp only [SpriteCovers, exec_drw_readAt he]

/-- A pixel is covered and set after a draw exactly when the draw set it. -/
theorem covered_and_set_iff_exec_drw_sets (hn : n < 16) (he : exec (.drw x y n) s = .next t) (q : RowId) (c : ColId) :
    SpriteCovers s (s.reg x) (s.reg y) n q c ∧ t.pixel q c = true ↔ s.pixel q c = false ∧ t.pixel q c = true := by
  obtain ⟨htoggled, hkept⟩ := exec_drw_pixel hn he q c
  by_cases hcov : SpriteCovers s (s.reg x) (s.reg y) n q c
  · simp [hcov, htoggled hcov]
  · simp [hcov, hkept hcov]

end

/-! ## The obligations (O40 to O42) -/

/-- Settles O40: one lemma for the pixels, one for the collision and one for the frame of a draw. -/
theorem drawTogglesWhatTheSpriteCovers : Obligations.DrawTogglesWhatTheSpriteCovers := by
  intro x y n hn
  refine ⟨decodeWord_of_eq_encode (wordXYN_eq 0xD _ rfl x y n hn) (decide_eq_true hn), fun s => ?_⟩
  have he := exec_drw_eq x y n s
  exact ⟨_, he, fun q c => (exec_drw_pixel hn he q c).1, fun q c => (exec_drw_pixel hn he q c).2,
    exec_drw_reg_VF he ▸ flagByte_eq_one_or_zero _, exec_drw_reg_VF_eq_one_iff hn he, exec_drw_frame he⟩

/-- Settles O41: with no rows the drawing is the framebuffer as it was, without a collision, so that VF is the one register
written. -/
theorem drawOfHeightZeroDrawsNothing : Obligations.DrawOfHeightZeroDrawsNothing :=
  fun x y s => setsReg_of_exec (b := flagByte false) (exec_drw_eq x y 0 s)

/-- Settles O42: the second draw covers the cells of the first, so that each is toggled twice, and those set before the second
are those the first one set. -/
theorem drawingTwiceRestoresTheFramebuffer : Obligations.DrawingTwiceRestoresTheFramebuffer := by
  intro x y n s t u hn hx hy hfirst hsecond
  have hsame := spriteCovers_after_exec_drw hx hy hfirst
  refine ⟨fun q c => ?_, ?_⟩
  · obtain ⟨htoggled, hkept⟩ := exec_drw_pixel hn hfirst q c
    obtain ⟨htoggledBack, hkeptAgain⟩ := exec_drw_pixel hn hsecond q c
    rw [hsame] at htoggledBack hkeptAgain
    by_cases hcov : SpriteCovers s (s.reg x) (s.reg y) n q c
    · rw [htoggledBack hcov, htoggled hcov, Bool.not_not]
    · rw [hkeptAgain hcov, hkept hcov]
  · rw [exec_drw_reg_VF_eq_one_iff hn hsecond]
    simp only [hsame, covered_and_set_iff_exec_drw_sets hn hfirst]

end Sys2Proof.Machine

/-! SUPPORT. Timers, index, memory and keypad, families E and F (spec/43_timer_memory_keypad.md R220 to R242): the frames of
their updates, the values they set, what a range copy leaves, and the obligations about them. -/

namespace Sys2Proof.Machine

/-! ## Frames of the updates -/

section
variable (s : State)

theorem onlyChanges_setDt (b : Byte) : OnlyChanges [.dt] s (s.setDt b) := by
  intro p hp
  cases p with
  | dt => exact absurd List.mem_cons_self hp
  | _ => simp [Part.same]

theorem onlyChanges_setSt (b : Byte) : OnlyChanges [.st] s (s.setSt b) := by
  intro p hp
  cases p with
  | st => exact absurd List.mem_cons_self hp
  | _ => simp [Part.same]

theorem onlyChanges_withRegs (v : Vector Byte 16) : OnlyChanges [.regs] s { s with v := v } := by
  intro p hp
  cases p with
  | regs => exact absurd List.mem_cons_self hp
  | _ => simp [Part.same, State.read, State.pixel]

theorem onlyChanges_withMem (m : Memory) : OnlyChanges [.mem] s { s with mem := m } := by
  intro p hp
  cases p with
  | mem => exact absurd List.mem_cons_self hp
  | _ => simp [Part.same, State.reg, State.pixel]

theorem onlyChanges_withFaults (fs : List FaultReport) : OnlyChanges [.faults] s { s with faults := fs } := by
  intro p hp
  cases p with
  | faults => exact absurd List.mem_cons_self hp
  | _ => simp [Part.same, State.reg, State.read, State.pixel]

/-- After a range copy only the index moves (R228, R229). -/
theorem onlyChanges_bumpIndex (x : RegId) : OnlyChanges [.index] s (s.bumpIndex x) :=
  onlyChanges_setIndex s _

end

/-! ## Values -/

/-- The sound output is on while ST is not 0 (R222). -/
theorem State.soundOn_iff (s : State) : s.soundOn = true ↔ s.st.toNat ≠ 0 := by
  simp [State.soundOn, State.soundPort, ← BitVec.toNat_inj]

theorem ofNat_mod_toNat (n : Nat) : (BitVec.ofNat 16 (n % 4096)).toNat = n % 4096 := by
  rw [BitVec.toNat_ofNat, Nat.mod_eq_of_lt (by omega)]

theorem fiveTimes_toNat (b : Byte) : (byteOperand b * 5).toNat = b.toNat * 5 := by
  have := b.isLt
  rw [BitVec.toNat_mul, byteOperand_toNat]
  exact Nat.mod_eq_of_lt (show b.toNat * 5 < 2 ^ 16 by omega)

theorem keyByte_toNat (k : KeyId) : (keyByte k).toNat = k.val := by
  rw [keyByte, BitVec.toNat_ofNat, Nat.mod_eq_of_lt (by omega)]

theorem offsetAddr_mem_storeAddrs (s : State) {k n : Nat} (h : k < n) : offsetAddr s.index k ∈ storeAddrs s n :=
  List.mem_map_of_mem (List.mem_range.mpr h)

/-! ## Timers and the index (O43 to O45) -/

/-- Settles O43: one register or one timer written; ST is what the sound output shows. -/
theorem timerTransfersMoveOneByte : Obligations.TimerTransfersMoveOneByte := fun x =>
  ⟨decodeWord_of_eq_encode (wordX_eq 0xF 0x07 _ rfl x) rfl, decodeWord_of_eq_encode (wordX_eq 0xF 0x15 _ rfl x) rfl,
    decodeWord_of_eq_encode (wordX_eq 0xF 0x18 _ rfl x) rfl,
    fun s => ⟨setsReg_of_exec rfl, ⟨_, rfl, rfl, nextPc_of_advance s rfl, (onlyChanges_setDt s _).advance⟩,
      ⟨_, rfl, rfl, State.soundOn_iff _, nextPc_of_advance s rfl, (onlyChanges_setSt s _).advance⟩⟩⟩

/-- Settles O44: sum and flag are of the operands as they were, so that `x = F` is no case of its own. -/
theorem addToIndexSetsTheOverflowFlag : Obligations.AddToIndexSetsTheOverflowFlag := fun x =>
  ⟨decodeWord_of_eq_encode (wordX_eq 0xF 0x1E _ rfl x) rfl, fun s =>
    ⟨_, rfl, ofNat_mod_toNat _, (reg_of_setReg s VF _ rfl).trans (flagByte_decide _), regsKept_of_setReg s VF _ rfl,
      nextPc_of_advance s rfl,
      ((onlyChanges_setIndex s _).trans (onlyChanges_setReg _ VF _)).advance.mono (by simp)⟩⟩

/-- Settles O45: five times a byte fits the index (`fiveTimes_toNat`). -/
theorem digitAddressIsFiveTimesTheRegister : Obligations.DigitAddressIsFiveTimesTheRegister := fun x =>
  ⟨decodeWord_of_eq_encode (wordX_eq 0xF 0x29 _ rfl x) rfl, fun s =>
    ⟨_, rfl, fiveTimes_toNat _, nextPc_of_advance s rfl, (onlyChanges_setIndex s _).advance⟩⟩

/-! ## Stores and loads at the index (O46 to O49) -/

/-- Settles O46: the digits by `exec_ldB_read_toNat`, the kept bytes and the report by `execLdB_eq`. -/
theorem decimalDigitsAreStoredAtTheIndex : Obligations.DecimalDigitsAreStoredAtTheIndex := by
  intro x
  have hw : wordX 0xF033 x = encode (.ldB x) := wordX_eq 0xF 0x33 _ rfl x
  refine ⟨decodeWord_of_eq_encode hw rfl, fun s => ?_⟩
  obtain ⟨_, m, rfl, -, -, hkept, he⟩ := execLdB_eq x s
  have hdigit {k d : Nat} := exec_ldB_read_toNat (k := k) (d := d) he
  exact ⟨_, he, fun k _ => State.offsetAddr_toNat _ k, hdigit (.inl ⟨rfl, rfl⟩), hdigit (.inr (.inl ⟨rfl, rfl⟩)),
    hdigit (.inr (.inr ⟨rfl, rfl⟩)), hkept, by rw [hw], nextPc_of_advance s rfl,
    ((onlyChanges_withMem s m).advance.trans (onlyChanges_withFaults _ _)).mono (by simp)⟩

section
variable {x : RegId} {s t : State}

theorem exec_storeRegs_index (he : exec (.storeRegs x) s = .next t) :
    t.index = mask12 (s.index + BitVec.ofNat 16 (x.val + 1)) := by
  obtain ⟨_, m, rfl, -, -, -, hnext⟩ := execStoreRegs_eq x s
  cases hnext.symm.trans he
  rfl

theorem exec_loadRegs_index (he : exec (.loadRegs x) s = .next t) :
    t.index = mask12 (s.index + BitVec.ofNat 16 (x.val + 1)) := by
  obtain ⟨v, hnext, -⟩ := execLoadRegs_eq x s
  cases hnext.symm.trans he
  rfl

/-- What FX65 leaves in each register (R229). -/
theorem exec_loadRegs_reg (he : exec (.loadRegs x) s = .next t) (r : RegId) :
    t.reg r = if r ≤ x then s.readAt r.val else s.reg r := by
  obtain ⟨v, hnext, hv⟩ := execLoadRegs_eq x s
  cases hnext.symm.trans he
  exact hv r

end

/-- Settles O47: the bytes by `exec_storeRegs_read`, the kept bytes and the report by `execStoreRegs_eq`. -/
theorem storeRangeCopiesRegistersToMemory : Obligations.StoreRangeCopiesRegistersToMemory := by
  intro x
  have hw : wordX 0xF055 x = encode (.storeRegs x) := wordX_eq 0xF 0x55 _ rfl x
  refine ⟨decodeWord_of_eq_encode hw rfl, fun s => ?_⟩
  obtain ⟨_, m, rfl, -, -, hkept, he⟩ := execStoreRegs_eq x s
  exact ⟨_, he, fun k _ => State.offsetAddr_toNat _ k, fun r => exec_storeRegs_read he, hkept, State.bumpIndex_toNat x _,
    by rw [hw], nextPc_of_advance s rfl,
    (((onlyChanges_withMem s m).trans (onlyChanges_bumpIndex _ x)).advance.trans
      (onlyChanges_withFaults _ _)).mono (by simp)⟩

/-- Settles O48: a register up to `x` reads memory at the old index, any other is kept (`exec_loadRegs_reg`). -/
theorem loadRangeCopiesMemoryToRegisters : Obligations.LoadRangeCopiesMemoryToRegisters := by
  refine fun x => ⟨decodeWord_of_eq_encode (wordX_eq 0xF 0x65 _ rfl x) rfl, fun s => ?_⟩
  obtain ⟨v, he, -⟩ := execLoadRegs_eq x s
  refine ⟨_, he, fun r hr => ?_, fun r hr => ?_, State.bumpIndex_toNat x _, nextPc_of_advance s rfl,
    ((onlyChanges_withRegs s v).trans (onlyChanges_bumpIndex _ x)).advance⟩
  · rw [exec_loadRegs_reg he, if_pos hr, State.readAt_eq]
  · rw [exec_loadRegs_reg he, if_neg (not_le.mpr hr)]

/-- Settles O49: the load reads each register's byte where the store left it, and both move the same index by `x + 1`. -/
theorem storeThenLoadRecoversTheRegisters : Obligations.StoreThenLoadRecoversTheRegisters := by
  intro x s t u junk hfree hstore hload
  refine ⟨fun r hr => ?_, ?_⟩
  · have hallowed : isReserved (offsetAddr s.index r.val) = false :=
      hfree _ (offsetAddr_mem_storeAddrs s (Nat.lt_succ_of_le hr))
    calc u.reg r = t.read (offsetAddr s.index r.val) := (exec_loadRegs_reg hload r).trans (if_pos hr)
      _ = s.reg r := exec_storeRegs_read hstore hr hallowed
  · rw [exec_loadRegs_index hload, exec_storeRegs_index hstore]

/-! ## The keypad (O51, O52) -/

/-- Settles O51: the scan finds no key, or the lowest that reads true, which is then the one register written. -/
theorem keyWaitTakesTheLowestLatchOrStays : Obligations.KeyWaitTakesTheLowestLatchOrStays := by
  refine fun x => ⟨decodeWord_of_eq_encode (wordX_eq 0xF 0x0A _ rfl x) rfl, fun s => ⟨fun hnone => ?_, fun k hk hlow => ?_⟩⟩
  · exact exec_ldVxK_of_none x (State.scanKeys_none.mpr hnone)
  · obtain ⟨t, he, hreg, hframe⟩ := setsReg_of_exec (exec_ldVxK_of_some x (State.scanKeys_some hk hlow))
    exact ⟨t, he, by rw [hreg, keyByte_toNat], hframe⟩

/-- Settles O52: both skips read the latch that `lowNibble` names, once. -/
theorem skipIfKeyReadsTheNamedLatch : Obligations.SkipIfKeyReadsTheNamedLatch := by
  refine fun x => ⟨decodeWord_of_eq_encode (wordX_eq 0xE 0x9E _ rfl x) rfl,
    decodeWord_of_eq_encode (wordX_eq 0xE 0xA1 _ rfl x) rfl, fun s k hk => ?_⟩
  rw [← lowNibble_eq (s.reg x) k hk]
  exact ⟨⟨_, rfl, nextPc_of_skipIf s _ rfl, onlyChanges_skipIf s _⟩,
    ⟨_, rfl, nextPc_of_skipIf s _ (by cases s.latch 0 (lowNibble (s.reg x)) <;> rfl), onlyChanges_skipIf s _⟩⟩

end Sys2Proof.Machine

/-! SUPPORT. The fault log and the timers along steps and runs (spec/60_exceptions.md R260 to R290): every step answers, what it
may append to the log, and how far the ticks of a run have counted the timers down. -/

namespace Sys2Proof.Machine

/-! ## Nothing stops the machine (O14) -/

theorem cycle_answers (s : State) : ∃ t, cycle s = .next t := by
  cases hd : decodeWord s.fetchWord with
  | insn i =>
    obtain ⟨t, he, -⟩ := exec_answers i s
    exact ⟨t, (cycle_of_insn hd).trans he⟩
  | decodeFault =>
    obtain ⟨t, hc, -⟩ := reportsAndPasses_decode hd
    exact ⟨t, hc⟩
  | selectorFault =>
    obtain ⟨t, hc, -⟩ := reportsAndPasses_arithSelector hd
    exact ⟨t, hc⟩

theorem step_of_cycle {s t : State} (h : cycle s.beginStep = .next t) : step s = .next t.endStep := by
  rw [step, h]
  rfl

/-- Settles O14: the cycle answers, whether its word is an instruction or not, and the slot around it stops nothing. -/
theorem everyStepAnswersANextState : Obligations.EveryStepAnswersANextState := by
  intro s
  obtain ⟨t, ht⟩ := cycle_answers s.beginStep
  exact ⟨t.endStep, step_of_cycle ht⟩

/-! ## What is appended to the fault log (O17, O16) -/

theorem faultsAfterStores_cases (s : State) (w : Word) (as : List Addr) :
    faultsAfterStores s w as = s.faults ∨
    ∃ suppressed, faultsAfterStores s w as = s.faults ++ [⟨.reservedWrite suppressed, s.pc, w⟩] := by
  unfold faultsAfterStores
  split
  · exact .inl rfl
  · exact .inr ⟨_, rfl⟩

/-- Settles O17: the forms of `Effect` that change the log are the two misuses of the stack and the two index stores. -/
theorem faultKindsComeOnlyFromTheirInstructions : Obligations.FaultKindsComeOnlyFromTheirInstructions := by
  intro i s t he hne
  cases exec_effect he with
  | underflow hsp => exact .inl ⟨rfl, rfl⟩
  | overflow nnn hsp => exact .inr (.inl ⟨nnn, rfl, rfl⟩)
  | ldB x m hm =>
    obtain ⟨as, has⟩ := (faultsAfterStores_cases s _ _).resolve_left hne
    exact .inr (.inr ⟨x, as, .inl rfl, has⟩)
  | storeRegs x m hm =>
    obtain ⟨as, has⟩ := (faultsAfterStores_cases s _ _).resolve_left hne
    exact .inr (.inr ⟨x, as, .inr rfl, has⟩)
  | _ => exact absurd rfl hne

theorem exec_faults {i : Instr} {s t : State} (he : exec i s = .next t) :
    t.faults = s.faults ∨ ∃ r, t.faults = s.faults ++ [r] := by
  by_cases hsame : t.faults = s.faults
  · exact .inl hsame
  · obtain ⟨-, h⟩ | ⟨_, -, h⟩ | ⟨_, _, -, h⟩ := faultKindsComeOnlyFromTheirInstructions i s t he hsame
    all_goals exact .inr ⟨_, h⟩

theorem cycle_faults {s t : State} (hc : cycle s = .next t) :
    t.faults = s.faults ∨ ∃ r, t.faults = s.faults ++ [r] := by
  obtain ⟨i, -, he⟩ | ⟨-, rfl⟩ | ⟨-, rfl⟩ := cycle_cases hc
  · exact exec_faults he
  · exact .inr ⟨_, rfl⟩
  · exact .inr ⟨_, rfl⟩

theorem State.beginStep_faults (s : State) : s.beginStep.faults = s.faults := by
  obtain ⟨es, a, hb⟩ := s.beginStep_eq
  rw [hb, State.hostEvents_fields]

/-- Settles O16: only the cycle between the two ends of the step appends to the log, and it appends one report or none. -/
theorem stepRaisesAtMostOneReport : Obligations.StepRaisesAtMostOneReport := by
  intro s t hstep
  obtain ⟨u, hu, rfl⟩ := step_cases hstep
  have h := cycle_faults hu
  rw [s.beginStep_faults] at h
  exact h

/-! ## Ticks (O55, O56) -/

theorem onlyChanges_tick (s : State) : OnlyChanges [.dt, .st] s s.tick := by
  intro p hp
  cases p with
  | dt | st => simp at hp
  | _ => simp [Part.same]

/-- Settles O55: `countDown` on each timer. -/
theorem tickCountsBothTimersDown : Obligations.TickCountsBothTimersDown := fun s =>
  ⟨countDown_toNat s.dt, countDown_toNat s.st, onlyChanges_tick s⟩

/-- From `s` to `t` both timers have gone down by `n`, stopping at 0 (R280). -/
def CountedDown (n : Nat) (s t : State) : Prop := t.dt.toNat = s.dt.toNat - n ∧ t.st.toNat = s.st.toNat - n

theorem CountedDown.trans {m n : Nat} {s t u : State} (h₁ : CountedDown m s t) (h₂ : CountedDown n t u) :
    CountedDown (m + n) s u :=
  ⟨by rw [h₂.1, h₁.1, Nat.sub_sub], by rw [h₂.2, h₁.2, Nat.sub_sub]⟩

/-- A byte counted down 255 times or more is at 0. -/
theorem CountedDown.silent {n : Nat} {s t : State} (h : CountedDown n s t) (hn : 255 ≤ n) : t.dt = 0 ∧ t.st = 0 := by
  obtain ⟨hdt, hst⟩ := h
  constructor <;> bv_omega

/-- Of the outside events only a tick moves the timers. -/
theorem State.hostEvent_countedDown (s : State) (e : HostEvent) : CountedDown ([e].count .tick) s (s.hostEvent e) := by
  cases e with
  | tick => exact ⟨countDown_toNat s.dt, countDown_toNat s.st⟩
  | setKey e => exact ⟨rfl, rfl⟩
  | load bytes =>
    simp only [hostEvent, load]
    split <;> exact ⟨rfl, rfl⟩

/-- The timers count the ticks among the outside events. -/
theorem State.hostEvents_countedDown (es : List HostEvent) (s : State) : CountedDown (es.count .tick) s (s.hostEvents es) := by
  induction es generalizing s with
  | nil => exact ⟨rfl, rfl⟩
  | cons e rest ih =>
    rw [← List.singleton_append, List.count_append]
    exact (s.hostEvent_countedDown e).trans (ih _)

/-- Settles O56: `n` outside events that are all ticks. -/
theorem ticksNeverPassZero : Obligations.TicksNeverPassZero := by
  intro n s
  have h := s.hostEvents_countedDown (List.replicate n .tick)
  rwa [List.count_replicate_self] at h

/-! ## A run at an idle point (O59) -/

theorem State.hostEvents_pc (es : List HostEvent) (s : State) : (s.hostEvents es).pc = s.pc := by
  rw [State.hostEvents_fields]

theorem AtIdlePoint.congr {s t : State} (h : AtIdlePoint s) (hpc : t.pc = s.pc) (hmem : t.mem = s.mem) :
    AtIdlePoint t := by
  obtain ⟨hlt, hjp⟩ := h
  have hword : t.fetchWord = s.fetchWord := State.fetchWord_congr hpc (State.read_congr hmem)
  exact ⟨by rwa [hpc], by rwa [hword, hpc]⟩

/-- A jump to the `pc` that a state already has leaves it as it is (R316). -/
theorem State.setPc_self {s : State} (h : s.pc.toNat < 4096) : s.setPc (addrOperand (toAddr s.pc)) = s := by
  have hpc : mask12 (addrOperand (toAddr s.pc)) = s.pc := by
    apply BitVec.eq_of_toNat_eq
    rw [mask12_toNat, addrOperand_toNat, toAddr_toNat, Nat.mod_mod, Nat.mod_eq_of_lt h]
  rw [setPc, hpc]

/-- The cycle at an idle point changes nothing (R316). -/
theorem AtIdlePoint.cycle {s : State} (h : AtIdlePoint s) : cycle s = .next s := by
  obtain ⟨hlt, hjp⟩ := h
  calc Machine.cycle s = .next (s.setPc (addrOperand (toAddr s.pc))) := cycle_of_insn hjp
    _ = .next s := by rw [State.setPc_self hlt]

/-- The state before the fetch of a step with `slot` around it. -/
def State.beginSlot (slot : Slot) (s : State) : State := { s with agenda := [slot] }.beginStep

theorem State.beginSlot_countedDown (slot : Slot) (s : State) :
    CountedDown (slot.before.count .tick) s (s.beginSlot slot) :=
  { s with agenda := [slot] }.hostEvents_countedDown slot.before

section
variable {s : State} {slot : Slot} (hidle : AtIdlePoint s) (hload : ∀ b, HostEvent.load b ∉ slot.before)
include hidle hload

theorem AtIdlePoint.beginSlot : AtIdlePoint (s.beginSlot slot) :=
  hidle.congr (State.hostEvents_pc slot.before { s with agenda := [slot] })
    (hostEvents_mem_of_no_load slot.before { s with agenda := [slot] } hload)

/-- A step at an idle point is the outside events of its slot and no more. -/
theorem AtIdlePoint.stepIn_eq : stepIn slot s = (s.beginSlot slot).endStep := by
  rw [stepIn, step_of_cycle (hidle.beginSlot hload).cycle, State.beginSlot]

theorem AtIdlePoint.stepIn : AtIdlePoint (stepIn slot s) := by
  rw [hidle.stepIn_eq hload]
  exact (hidle.beginSlot hload).congr rfl rfl

theorem AtIdlePoint.stepIn_countedDown : CountedDown (slot.before.count .tick) s (Machine.stepIn slot s) := by
  rw [hidle.stepIn_eq hload]
  exact s.beginSlot_countedDown slot

end

/-- The number of ticks before the first `n` steps of a schedule. -/
def ticksBefore (sch : Schedule) (n : Nat) : Nat := ∑ k ∈ Finset.range n, (sch k).before.count .tick

theorem ticksBefore_succ (sch : Schedule) (n : Nat) :
    ticksBefore sch (n + 1) = ticksBefore sch n + (sch n).before.count .tick := Finset.sum_range_succ _ n

theorem ticksBefore_mono (sch : Schedule) {m n : Nat} (h : m ≤ n) : ticksBefore sch m ≤ ticksBefore sch n :=
  Finset.sum_le_sum_of_subset (Finset.range_mono h)

/-- A fair schedule passes every number of ticks (R281). -/
theorem FairSchedule.exists_le_ticksBefore {sch : Schedule} (hfair : FairSchedule sch) (k : Nat) :
    ∃ n, k ≤ ticksBefore sch n := by
  induction k with
  | zero => exact ⟨0, Nat.zero_le _⟩
  | succ k ih =>
    obtain ⟨n, hn⟩ := ih
    obtain ⟨m, hm, htick⟩ := hfair n
    refine ⟨m + 1, ?_⟩
    calc k + 1 ≤ ticksBefore sch m + 1 := Nat.succ_le_succ (hn.trans (ticksBefore_mono sch hm))
      _ ≤ ticksBefore sch m + (sch m).before.count .tick := Nat.add_le_add_left (List.count_pos_iff.mpr htick) _
      _ = ticksBefore sch (m + 1) := (ticksBefore_succ sch m).symm

section
variable {sch : Schedule} {s : State} (hload : NoLoads sch) (hidle : AtIdlePoint s)
include hload hidle

theorem AtIdlePoint.runSchedule (n : Nat) : AtIdlePoint (runSchedule sch s n) := by
  induction n with
  | zero => exact hidle
  | succ n ih => exact ih.stepIn (hload n)

/-- A run at an idle point has counted the timers down by the ticks of its schedule. -/
theorem AtIdlePoint.runSchedule_countedDown (n : Nat) :
    CountedDown (ticksBefore sch n) s (Machine.runSchedule sch s n) := by
  induction n with
  | zero => exact ⟨rfl, rfl⟩
  | succ n ih =>
    rw [ticksBefore_succ]
    exact ih.trans ((hidle.runSchedule hload n).stepIn_countedDown (hload n))

end

/-- Settles O59: once 255 ticks have passed, which fairness grants, both timers are at 0, and no later tick moves them. -/
theorem fairTicksSilenceTheTimers : Obligations.FairTicksSilenceTheTimers := by
  intro sch s hfair hload hidle
  obtain ⟨n, hn⟩ := hfair.exists_le_ticksBefore 255
  exact ⟨n, fun m hm => (hidle.runSchedule_countedDown hload m).silent (hn.trans (ticksBefore_mono sch hm))⟩

end Sys2Proof.Machine

/-! SUPPORT. The idle point and the loader (spec/70_reset_and_hazards.md R305, R316): a cycle that changes nothing, and what a
load accepts, copies and keeps. -/

namespace Sys2Proof.Machine

/-! ## The idle point (O58) -/

/-- Settles O58: the word at an idle point jumps to the `pc` that the state already has. -/
theorem idlePointChangesNothing : Obligations.IdlePointChangesNothing := fun _ hidle => hidle.cycle

/-! ## The loader (O57) -/

section
variable {s t : State} {bytes : List Byte}

theorem State.load_of_fits (s : State) (h : bytes.length ≤ 3584) :
    s.load bytes = some { s with mem := s.mem.writeBytes 0x200 bytes } := if_neg (Nat.not_lt.mpr h)

theorem State.load_of_too_long (s : State) (h : 3584 < bytes.length) : s.load bytes = none := if_pos h

theorem State.hostEvent_of_load (h : s.load bytes = some t) : s.hostEvent (.load bytes) = t := by
  rw [hostEvent, h, Option.getD_some]

theorem State.hostEvent_of_rejected_load (h : s.load bytes = none) : s.hostEvent (.load bytes) = s := by
  rw [hostEvent, h, Option.getD_none]

/-- After an accepted load the program's addresses hold its bytes and the others what they held. -/
theorem State.read_of_load (h : bytes.length ≤ 3584) (ht : s.load bytes = some t) (a : Addr) :
    t.read a =
      if 0x200 ≤ a.toNat ∧ a.toNat < 0x200 + bytes.length then bytes.getD (a.toNat - 0x200) 0 else s.read a := by
  obtain rfl := Option.some.inj ((s.load_of_fits h).symm.trans ht)
  exact Memory.read_writeBytes bytes s.mem 0x200 a.toNat

end

/-- Settles O57: `load` accepts exactly the programs that fit, and `State.read_of_load` gives every byte after it. -/
theorem loadCopiesOrRejects : Obligations.LoadCopiesOrRejects := by
  intro bytes s
  constructor
  · intro hfits
    have hload := s.load_of_fits hfits
    refine ⟨_, hload, State.hostEvent_of_load hload, fun i hi => ?copied, fun a ha => ?kept, onlyChanges_withMem s _⟩
    case copied =>
      have haddr : (BitVec.ofNat 12 (0x200 + i)).toNat = 0x200 + i := Nat.mod_eq_of_lt (by omega)
      rw [State.read_of_load hfits hload, haddr, if_pos (by omega), Nat.add_sub_cancel_left,
        List.getD_eq_getElem _ _ hi]
    case kept => rw [State.read_of_load hfits hload, if_neg (by omega)]
  · intro hlong
    have hload := s.load_of_too_long hlong
    exact ⟨hload, State.hostEvent_of_rejected_load hload⟩

end Sys2Proof.Machine
